-- ==== Sys2Proof/Word.lean ====
section
/-! DEFINITION. The word types of the block: the byte of the device register space (R8, R30) and the
64-bit command word (R53, R54). -/

namespace Sys2Proof

/-- "A byte is an unsigned 8-bit value in 0..255 unless a rule says it is reinterpreted" (R8). -/
abbrev Byte := BitVec 8

/-- The command word `cmd[63:0]` (R53). -/
abbrev CmdWord := BitVec 64

end Sys2Proof
end

