-- ==== Sys2Proof/Config.lean ====
section
/-! DEFINITION. What an implementation fixes and the spec leaves open (R7): the bus address of the sensor instance.
The other parameters of R7 have values; they stand in Machine/Params.lean, where a repair can reach them. -/

namespace Sys2Proof

/-- `DEV_ADDR` (R7): "7-bit bus address identifying the sensor instance; fixed at construction; never mutated".
OPEN: the spec gives no value (N14), so the constant has no body and nothing can be proved about its value. -/
opaque Config.devAddr : BitVec 7

end Sys2Proof
end

