-- ==== Sys2Proof/Syntax.lean ====
section
/-! DEFINITION. The nine commands (R55), with the operand fields of R56 at their own widths. -/

namespace Sys2Proof

/-- One constructor per row of the opcode map (R55, R70). Operands are the raw fields of the command word (R56);
`tFine` is the bit pattern of a signed 32-bit number. -/
inductive Instr where
  /-- PROBE (R86). -/
  | probe
  /-- LOAD_CAL (R71). -/
  | loadCal
  /-- CONFIGURE (R87): standby period code, filter coefficient code. -/
  | configure (period filter : BitVec 3)
  /-- START (R88): humidity, temperature and pressure oversampling codes, mode code. -/
  | start (osrsH osrsT osrsP : BitVec 3) (mode : BitVec 2)
  /-- IS_BUSY (R90). -/
  | isBusy
  /-- READ_SAMPLE (R92). -/
  | readSample
  /-- COMP_T (R112): raw temperature count. -/
  | compT (adcT : BitVec 20)
  /-- COMP_P (R117): raw pressure count, fine temperature. -/
  | compP (adcP : BitVec 20) (tFine : BitVec 32)
  /-- COMP_H (R124): raw humidity count, fine temperature. -/
  | compH (adcH : BitVec 16) (tFine : BitVec 32)
  deriving DecidableEq, Repr

/-- The mnemonic of a command's row (R55). -/
def Instr.mnemonic : Instr → String
  | .probe => "PROBE"
  | .loadCal => "LOAD_CAL"
  | .configure _ _ => "CONFIGURE"
  | .start _ _ _ _ => "START"
  | .isBusy => "IS_BUSY"
  | .readSample => "READ_SAMPLE"
  | .compT _ => "COMP_T"
  | .compP _ _ => "COMP_P"
  | .compH _ _ => "COMP_H"

end Sys2Proof
end

