-- ==== Sys2Proof/WellFormed.lean ====
section
/-! DEFINITION. Which commands carry only operand codes the enumerations contain (R61, R62 to R65, R68).
A command that is not well formed still decodes and runs: it completes with `ST_OPERAND` (R61, R134). -/

namespace Sys2Proof

/-- `mode` is 0, 1 or 3 (R62, R68): "value 2 unused/reserved". -/
def Instr.modeDefined (mode : BitVec 2) : Bool :=
  mode == 0#2 || mode == 1#2 || mode == 3#2

/-- `filter` is 0 to 4 (R64, R68). -/
def Instr.filterDefined (filter : BitVec 3) : Bool :=
  filter.toNat ≤ 4

/-- An oversampling code is 0 to 5 (R65, R68). -/
def Instr.oversamplingDefined (osrs : BitVec 3) : Bool :=
  osrs.toNat ≤ 5

/-- Every operand code of the command is one its enumeration contains. All 8 values of `period` are legal (R61),
and so is every value of a raw count and of `t_fine` (R56). -/
def Instr.WellFormed : Instr → Bool
  | .configure _ filter => filterDefined filter
  | .start osrsH osrsT osrsP mode =>
    oversamplingDefined osrsH && oversamplingDefined osrsT && oversamplingDefined osrsP && modeDefined mode
  | .probe => true
  | .loadCal => true
  | .isBusy => true
  | .readSample => true
  | .compT _ => true
  | .compP _ _ => true
  | .compH _ _ => true

end Sys2Proof
end

