-- ==== Sys2Proof/Decode.lean ====
section
/-! DEFINITION. Decoding a 64-bit command word (R54 to R56, R60, R66), the encoder written from the same field
table (R56, R68), and the opcode table as match and mask (R70). -/

namespace Sys2Proof

/-- Why a word is illegal (R60). The block reports both as `ST_ILLEGAL`. -/
inductive Illegal where
  /-- `op` is one of 0x0, 0x7, 0xB to 0xF. -/
  | reservedOpcode (op : BitVec 4)
  /-- A must-be-zero bit of the opcode's command is 1. -/
  | mustBeZero (op : BitVec 4)
  deriving DecidableEq, Repr

/-- The `n` bits of `w` from bit `lo` up: `w[lo+n-1:lo]` in the notation of R8. -/
def bitsAt (w : CmdWord) (lo n : Nat) : BitVec n :=
  w.extractLsb' lo n

/-- The `n` bits of `w` from bit `lo` up are all 0. -/
def zeroAt (w : CmdWord) (lo n : Nat) : Bool :=
  bitsAt w lo n == 0

/-- Step 2 of R66: test the must-be-zero bits, then accept the command. -/
def acceptIf (op : BitVec 4) (mbz : Bool) (i : Instr) : Except Illegal Instr :=
  if mbz then .ok i else .error (.mustBeZero op)

/-- R66: a total function from 64-bit words to a command with its operand values, or illegal. -/
def decode (w : CmdWord) : Except Illegal Instr :=
  let op := bitsAt w 60 4
  match op.toNat with
  | 0x1 => acceptIf op (zeroAt w 0 60) .probe
  | 0x2 => acceptIf op (zeroAt w 0 60) .loadCal
  | 0x3 => acceptIf op (zeroAt w 8 52 && zeroAt w 0 2) (.configure (bitsAt w 5 3) (bitsAt w 2 3))
  | 0x4 => acceptIf op (zeroAt w 11 49) (.start (bitsAt w 8 3) (bitsAt w 5 3) (bitsAt w 2 3) (bitsAt w 0 2))
  | 0x5 => acceptIf op (zeroAt w 0 60) .isBusy
  | 0x6 => acceptIf op (zeroAt w 0 60) .readSample
  | 0x8 => acceptIf op (zeroAt w 52 8 && zeroAt w 0 32) (.compT (bitsAt w 32 20))
  | 0x9 => acceptIf op (zeroAt w 52 8) (.compP (bitsAt w 32 20) (bitsAt w 0 32))
  | 0xA => acceptIf op (zeroAt w 48 12) (.compH (bitsAt w 32 16) (bitsAt w 0 32))
  | _ => .error (.reservedOpcode op)

/-- The word of a command (R54, R56, R68): opcode first, then the fields from bit 59 down, MBZ fields as zeros. -/
def encode : Instr → CmdWord
  | .probe => 0x1#4 ++ 0#60
  | .loadCal => 0x2#4 ++ 0#60
  | .configure period filter => 0x3#4 ++ 0#52 ++ period ++ filter ++ 0#2
  | .start osrsH osrsT osrsP mode => 0x4#4 ++ 0#49 ++ osrsH ++ osrsT ++ osrsP ++ mode
  | .isBusy => 0x5#4 ++ 0#60
  | .readSample => 0x6#4 ++ 0#60
  | .compT adcT => 0x8#4 ++ 0#8 ++ adcT ++ 0#32
  | .compP adcP tFine => 0x9#4 ++ 0#8 ++ adcP ++ tFine
  | .compH adcH tFine => 0xA#4 ++ 0#12 ++ adcH ++ tFine

/-- A row of the table of R70. -/
structure OpcodeRow where
  mnemonic : String
  pattern : CmdWord
  mask : CmdWord
  deriving DecidableEq, Repr

/-- "A word `w` is the command of a row exactly when `(w & mask) == match`" (R70). -/
def OpcodeRow.covers (row : OpcodeRow) (w : CmdWord) : Bool :=
  w &&& row.mask == row.pattern

/-- The complete list of legal words by pattern (R70; the rows of spec/opcode_table.json). -/
def opcodeTable : List OpcodeRow :=
  [ ⟨"PROBE", 0x1000000000000000#64, 0xFFFFFFFFFFFFFFFF#64⟩,
    ⟨"LOAD_CAL", 0x2000000000000000#64, 0xFFFFFFFFFFFFFFFF#64⟩,
    ⟨"CONFIGURE", 0x3000000000000000#64, 0xFFFFFFFFFFFFFF03#64⟩,
    ⟨"START", 0x4000000000000000#64, 0xFFFFFFFFFFFFF800#64⟩,
    ⟨"IS_BUSY", 0x5000000000000000#64, 0xFFFFFFFFFFFFFFFF#64⟩,
    ⟨"READ_SAMPLE", 0x6000000000000000#64, 0xFFFFFFFFFFFFFFFF#64⟩,
    ⟨"COMP_T", 0x8000000000000000#64, 0xFFF00000FFFFFFFF#64⟩,
    ⟨"COMP_P", 0x9000000000000000#64, 0xFFF0000000000000#64⟩,
    ⟨"COMP_H", 0xA000000000000000#64, 0xFFFF000000000000#64⟩ ]

/-- The 64-bit word whose low `nbits` bits are those of `w` and whose other bits are 0 (R54: one command length). -/
def tableWord (nbits w : Nat) : CmdWord :=
  BitVec.ofNat 64 (w % 2 ^ nbits)

/-- The command the decoder reads from a table word, none where it refuses. -/
def decodeTableWord (nbits w : Nat) : Option Instr :=
  match decode (tableWord nbits w) with
  | .ok i => some i
  | .error _ => none

end Sys2Proof
end

