-- ==== Sys2Proof/Machine/State.lean ====
section
/-! DEFINITION. The state of the block (10_state.md), the values on its ports, and the state after reset (R27). -/

namespace Sys2Proof.Machine

/-- `SEQ`, the sequencer state register (R19, R20). -/
inductive SeqState where
  /-- No successful CONFIGURE since reset. -/
  | uninitialized
  /-- A CONFIGURE succeeded and no START has succeeded since. -/
  | configured
  /-- The last successful IS_BUSY that followed a START saw the device not busy. -/
  | idle
  /-- A START succeeded, or an IS_BUSY saw the device busy, and no IS_BUSY has seen it not busy since. -/
  | measuring
  deriving DecidableEq, Repr

/-- The register file `cal` (R14 to R16): 18 constants, each the bit pattern of the type R15 and R16 give it. -/
structure Calibration where
  T1 : BitVec 16
  T2 : BitVec 16
  T3 : BitVec 16
  P1 : BitVec 16
  P2 : BitVec 16
  P3 : BitVec 16
  P4 : BitVec 16
  P5 : BitVec 16
  P6 : BitVec 16
  P7 : BitVec 16
  P8 : BitVec 16
  P9 : BitVec 16
  H1 : BitVec 8
  H2 : BitVec 16
  H3 : BitVec 8
  H4 : BitVec 16
  H5 : BitVec 16
  H6 : BitVec 8
  deriving DecidableEq, Repr

/-- The constants after reset: "0 in the hardware" (R27). -/
def Calibration.zero : Calibration :=
  { T1 := 0, T2 := 0, T3 := 0
    P1 := 0, P2 := 0, P3 := 0, P4 := 0, P5 := 0, P6 := 0, P7 := 0, P8 := 0, P9 := 0
    H1 := 0, H2 := 0, H3 := 0, H4 := 0, H5 := 0, H6 := 0 }

/-- Completion statuses (R131). -/
inductive Status where
  /-- `ST_OK`: the command did what its rule says. -/
  | ok
  /-- `ST_BUS`: a bus phase failed and the device has received no write from this command. -/
  | bus
  /-- `ST_BUS_PARTIAL`: START only, the write to 0xF2 succeeded and the write to 0xF4 failed. -/
  | busPartial
  /-- `ST_NOCAL`: the command needs calibration and `CAL_VALID` = 0. -/
  | noCal
  /-- `ST_STATE`: the command is not admitted in the current `SEQ` state. -/
  | badState
  /-- `ST_OPERAND`: a legal word carries a reserved operand code. -/
  | operand
  /-- `ST_ILLEGAL`: reserved opcode or nonzero MBZ bit. -/
  | illegal
  deriving DecidableEq, Repr

/-- One response record (R57). -/
structure Response where
  status : Status
  ovf : Bool
  res : BitVec 64
  deriving DecidableEq, Repr

/-- A request on the transport port (R32, R33). Its `dev` lines carry `DEV_ADDR` whatever the request (Machine/Bus.lean). -/
inductive Request where
  /-- SEL(reg): the register-select write. -/
  | sel (reg : BitVec 8)
  /-- RD(n): the n-byte read that follows a SEL. -/
  | rd (n : Nat)
  /-- WR(reg, val): register select and value write in one transaction. -/
  | wr (reg val : BitVec 8)
  deriving DecidableEq, Repr

/-- The transport's answer to a request (R32): `ok` and, for RD, a byte list. -/
structure Answer where
  ok : Bool
  bytes : List Byte
  deriving DecidableEq, Repr

/-- One bus phase: a request with its answer (R33). `none` is a request that reset abandoned before any answer (R148). -/
structure BusPhase where
  request : Request
  answer : Option Answer
  deriving DecidableEq, Repr

/-- What the transport does next: answer the outstanding request, or leave it unanswered for the rest of this step (R158). -/
inductive BusEvent where
  | answer (a : Answer)
  | silent
  deriving DecidableEq, Repr

/-- What the host does next: present a command word, or assert and release reset (R53, R147, R160). -/
inductive HostEvent where
  | command (w : CmdWord)
  | reset
  deriving DecidableEq, Repr

/-- A command in flight: the accepted command (R53), the index of its next bus phase (R22) and the bytes it has read
so far (the staging area of R21 when the command is LOAD_CAL). -/
structure Flight where
  cmd : Instr
  phase : Nat
  staged : List Byte
  deriving DecidableEq, Repr

/-- The whole architectural state (R13), what the host and the transport do next (R6), and what has been observed on
the ports so far (R12, R57). -/
structure State where
  /-- The calibration register file (R14). -/
  cal : Calibration
  /-- `CAL_VALID` (R17). -/
  calValid : Bool
  /-- `IDENTITY` (R18). -/
  identity : BitVec 32
  /-- `SEQ` (R19). -/
  seq : SeqState
  /-- The in-flight marker (R23) with the control state of the command in flight (R21, R22); `none` is the marker at 0. -/
  flight : Option Flight
  /-- What the host does from now on, in order. -/
  host : List HostEvent
  /-- What the transport does from now on, in order: an unconstrained input (R41). When it is empty the transport is silent. -/
  bus : List BusEvent
  /-- The responses produced so far, oldest first (R53, R57). -/
  responses : List Response
  /-- The bus trace so far, oldest first (R12, R50). -/
  trace : List BusPhase
  deriving DecidableEq, Repr

/-- The reasons the block stops with a fault: none. "The block never halts" (R159), it has no trap (R143), and every
cause of failure is a completion status (R131). No step raises a fault, which is safe: nothing is left out. -/
inductive Fault where
  deriving DecidableEq, Repr

/-- The reasons a command has no meaning in the model. -/
inductive Refusal where
  /-- Raised by exec for a command that is not modelled yet; no command is. Safe: the machine stops. -/
  | notModelled (mnemonic : String)
  deriving DecidableEq, Repr

/-- The state after reset (R27, R147): every register at its reset value, nothing in flight, nothing produced, no phase
issued (R149), and no input waiting. -/
def State.reset : State :=
  { cal := Calibration.zero
    calValid := false
    identity := 0
    seq := .uninitialized
    flight := none
    host := []
    bus := []
    responses := []
    trace := [] }

end Sys2Proof.Machine
end

