-- ==== Sys2Proof/Machine/Params.lean ====
section
/-! DEFINITION. The implementation parameters of R7 that have a value. -/

namespace Sys2Proof.Machine

/-- `CHIP_ID`: the value the chip identifier register must hold for PROBE to answer present (R7, R45). -/
def chipId : Byte := 0x60

/-- `P1_UNSIGNED`: whether calibration constant P1 is read as unsigned (R7): false, "P1 is signed 16-bit, as the source
says". The pressure formula takes it as an argument, so that both readings can be stated. -/
def p1Unsigned : Bool := false

/-- `W_T`, `W_H`: datapath width of temperature and humidity compensation (R7, R105). -/
def widthTH : Nat := 32

/-- `W_P`: datapath width of pressure compensation (R7, R105). -/
def widthP : Nat := 64

/-- `H_CLAMP_MAX`: the upper humidity clamp (R7, R126). -/
def hClampMax : Int := 419430400

/-- `FNV_BASIS` (R7, R80). -/
def fnvBasis : BitVec 32 := 0x811c9dc5

/-- `FNV_PRIME` (R7, R80). -/
def fnvPrime : BitVec 32 := 0x01000193

/-- `MAX_BLOCK`: the longest block read the block issues (R7). -/
def maxBlock : Nat := 24

end Sys2Proof.Machine
end

