-- ==== Sys2Proof/Machine/Bus.lean ====
section
/-! DEFINITION. The register access unit: bus phases and the primitives MemRead and MemWrite (R32 to R39). -/

namespace Sys2Proof.Machine

/-- The `dev[6:0]` lines of a request: `DEV_ADDR`, constant (R32). -/
def Request.dev (_ : Request) : BitVec 7 := Config.devAddr

/-- A phase succeeds when the answer has `ok` = 1 and, for RD(n), exactly `n` bytes; every other answer is a failure (R33). -/
def Answer.succeeds (a : Answer) : Request → Bool
  | .sel _ => a.ok
  | .rd n => a.ok && a.bytes.length == n
  | .wr _ _ => a.ok

/-- The bytes a successful phase delivers to its command: those of an RD answer (R35, R36); an answer to SEL or WR
carries none (R32). -/
def Answer.delivers (a : Answer) : Request → List Byte
  | .sel _ => []
  | .rd _ => a.bytes
  | .wr _ _ => []

/-- The phases of `MemRead(reg, n)`: SEL, then RD (R35, R36). -/
def memRead (reg : Byte) (n : Nat) : List Request := [.sel reg, .rd n]

/-- The one phase of `MemWrite(reg, 1, val)` (R37). -/
def memWrite (reg val : Byte) : List Request := [.wr reg val]

/-- Byte `k` of a list of read bytes. A command looks only at bytes its reads have delivered. -/
def byteAt (bytes : List Byte) (k : Nat) : Byte := bytes.getD k 0

end Sys2Proof.Machine
end

