-- ==== Sys2Proof/Machine/Flags.lean ====
section
/-! DEFINITION. The integer arithmetic of the compensation pipeline and its overflow indication (R9, R105 to R110).
An operation computes the exact result, narrows it to the width, and records whether narrowing changed it. -/

namespace Sys2Proof.Machine

/-- `wrap_W(x)` (R9): the unique `y` with `-2^(W-1) ≤ y < 2^(W-1)` and `y ≡ x (mod 2^W)`. -/
def wrap (W : Nat) (x : Int) : Int :=
  let r := x % 2 ^ W
  if r < 2 ^ (W - 1) then r else r - 2 ^ W

/-- `x` lies in the range of a signed number of `W` bits (R106). -/
def fits (W : Nat) (x : Int) : Bool :=
  decide (-2 ^ (W - 1) ≤ x) && decide (x < 2 ^ (W - 1))

/-- A value of the pipeline together with the overflow indication of every operation it was computed from (R110). -/
structure Fx where
  val : Int
  ovf : Bool
  deriving DecidableEq, Repr

/-- A value no operation has produced: an operand or a constant of a rule. It starts with `ovf` = 0 (R110). -/
def Fx.lit (x : Int) : Fx := ⟨x, false⟩

/-- Narrow an exact result to `W` bits: the wrapped value, and `ovf` set when the exact result does not fit (R106). -/
def Fx.narrow (W : Nat) (exact : Int) (ovf : Bool) : Fx :=
  ⟨wrap W exact, ovf || !fits W exact⟩

/-- `a + b` at width `W` (R106). -/
def Fx.add (W : Nat) (a b : Fx) : Fx := Fx.narrow W (a.val + b.val) (a.ovf || b.ovf)

/-- `a - b` at width `W` (R106). -/
def Fx.sub (W : Nat) (a b : Fx) : Fx := Fx.narrow W (a.val - b.val) (a.ovf || b.ovf)

/-- `a * b` at width `W`, signed by signed (R106). -/
def Fx.mul (W : Nat) (a b : Fx) : Fx := Fx.narrow W (a.val * b.val) (a.ovf || b.ovf)

/-- `a << n` at width `W` (R107). -/
def Fx.shl (W : Nat) (a : Fx) (n : Nat) : Fx := Fx.narrow W (a.val * 2 ^ n) a.ovf

/-- `a >> n`, the arithmetic shift `floor(a / 2^n)` (R108): "It never overflows". -/
def Fx.sar (a : Fx) (n : Nat) : Fx := ⟨a.val / 2 ^ n, a.ovf⟩

/-- `a / b` at width `W`, truncated toward zero (R109). -/
def Fx.quot (W : Nat) (a b : Fx) : Fx := Fx.narrow W (a.val.tdiv b.val) (a.ovf || b.ovf)

/-- `as_u32` of a signed value (R9): its low 32 bits. -/
def asU32 (x : Int) : BitVec 32 := BitVec.ofInt 32 x

end Sys2Proof.Machine
end

