-- ==== Sys2Proof/Machine/Operands.lean ====
section
/-! DEFINITION. Operands: the reserved operand codes a command is checked for (R61), the register images the
configuration operands form (R47 to R49), and the widening of compensation operands (R111). -/

namespace Sys2Proof.Machine

/-- `mode` = 2 is reserved (R61, R62). -/
def modeReserved (mode : BitVec 2) : Bool := mode == 2#2

/-- `filter` 5, 6 and 7 are reserved (R61, R64). -/
def filterReserved (filter : BitVec 3) : Bool := 5#3 ≤ filter

/-- Oversampling codes 6 and 7 are reserved (R61, R65). -/
def oversamplingReserved (osrs : BitVec 3) : Bool := 6#3 ≤ osrs

/-- The image of register 0xF5: `(period << 5) | (filter << 2)` (R49). -/
def configImage (period filter : BitVec 3) : Byte :=
  (period.zeroExtend 8 <<< 5) ||| (filter.zeroExtend 8 <<< 2)

/-- The image of register 0xF2: the humidity code in bits 2:0 (R47). -/
def humidityImage (osrsH : BitVec 3) : Byte := osrsH.zeroExtend 8

/-- The image of register 0xF4: `(tempOversampling << 5) | (pressOversampling << 2) | mode` (R48). -/
def measureImage (osrsT osrsP : BitVec 3) (mode : BitVec 2) : Byte :=
  (osrsT.zeroExtend 8 <<< 5) ||| (osrsP.zeroExtend 8 <<< 2) ||| mode.zeroExtend 8

/-- An unsigned operand, widened with zero bits (R9, R111). -/
def unsignedFx {n : Nat} (x : BitVec n) : Fx := Fx.lit x.toNat

/-- A signed operand, widened with its sign bit (R9, R111). -/
def signedFx {n : Nat} (x : BitVec n) : Fx := Fx.lit x.toInt

/-- P1, read as unsigned exactly when the parameter says so (R15, R111). -/
def widenP1 (p1u : Bool) (x : BitVec 16) : Fx :=
  if p1u then unsignedFx x else signedFx x

end Sys2Proof.Machine
end

