-- ==== Sys2Proof/Machine/Ops.lean ====
section
/-! DEFINITION. The shared operations: the outputs a host sees, producing a response, the order of checks, and running
the bus phases of a command. -/

namespace Sys2Proof.Machine

/-- The binary code of a `SEQ` value (R19). -/
def SeqState.code : SeqState → BitVec 2
  | .uninitialized => 0b00
  | .configured => 0b01
  | .idle => 0b10
  | .measuring => 0b11

/-- The code of a completion status (R131). -/
def Status.code : Status → BitVec 4
  | .ok => 0
  | .bus => 1
  | .busPartial => 2
  | .noCal => 3
  | .badState => 4
  | .operand => 5
  | .illegal => 6

/-- The packing of a response in one word (R57): `rsp[68:65]` status, `rsp[64]` ovf, `rsp[63:0]` res. -/
def Response.packed (r : Response) : BitVec 69 :=
  r.status.code ++ BitVec.ofBool r.ovf ++ r.res

/-- The status outputs shown to the host continuously (R26): `seq_state`, `cal_valid`, `identity`. -/
def State.statusOutputs (s : State) : BitVec 2 × Bool × BitVec 32 :=
  (s.seq.code, s.calValid, s.identity)

/-- Append a response and clear the in-flight marker (R23, R53): the end of a command. -/
def State.finish (s : State) (r : Response) : State :=
  { s with flight := none, responses := s.responses ++ [r] }

/-- `respond(res)` (R10): the command ends with `ST_OK`. -/
def State.respond (s : State) (ovf : Bool) (res : BitVec 64) : State :=
  s.finish ⟨.ok, ovf, res⟩

/-- `raise ST_x` (R10, R132, R143), the block's one analogue of taking an exception: the command ends with a non-OK
status, `res` = 0 and `ovf` = 0, and the block state is what it was before the command. Nothing is saved and there is
no return: the block is ready for the next command. -/
def State.raise (s : State) (st : Status) : State :=
  s.finish ⟨st, false, 0⟩

/-- Steps 2 to 4 of the order of tests (R134): reserved operand code, then calibration, then sequencer state. -/
def checkOrder (codeReserved needsCal seqRefused calValid : Bool) : Option Status :=
  if codeReserved then some .operand
  else if needsCal && !calValid then some .noCal
  else if seqRefused then some .badState
  else none

/-- What a command is made of: its checks (R134), its fixed list of bus phases (R22), the status a failure of phase
`k` raises (R136, R137), and what happens when every phase has succeeded, given the bytes read. -/
structure Command where
  instr : Instr
  check : State → Option Status
  requests : List Request
  failStatus : Nat → Status
  commit : List Byte → State → State

/-- Most commands raise `ST_BUS` whichever phase fails (R136). -/
def busFailure (_ : Nat) : Status := .bus

/-- The command stays in flight, waiting for the answer to its phase `k` (R23, R53, R158). -/
def State.await (s : State) (i : Instr) (k : Nat) (staged : List Byte) : State :=
  { s with flight := some ⟨i, k, staged⟩ }

/-- Record a phase and its answer in the bus trace, and take the answer from the transport. -/
def State.logPhase (s : State) (r : Request) (a : Answer) (later : List BusEvent) : State :=
  { s with bus := later, trace := s.trace ++ [⟨r, some a⟩] }

/-- Issue the remaining phases `rs` of a command in order, the first of them its phase `k`, with the bytes read so far
(R34 to R38, R50): each is answered before the next is issued, the first failure ends the command, no phase is
repeated. While the transport is silent the command waits. -/
def Command.issue (c : Command) : List Request → Nat → List Byte → State → State
  | [], _, staged, s => c.commit staged s
  | r :: rs, k, staged, s =>
    match s.bus with
    | [] => s.await c.instr k staged
    | .silent :: later => { s with bus := later }.await c.instr k staged
    | .answer a :: later =>
      if a.succeeds r then
        c.issue rs (k + 1) (staged ++ a.delivers r) (s.logPhase r a later)
      else
        (s.logPhase r a later).raise (c.failStatus k)

/-- Perform an accepted command from its checks on (R53, R134): a check that fails raises its status and issues no phase. -/
def Command.run (c : Command) (s : State) : State :=
  match c.check s with
  | some st => s.raise st
  | none => c.issue c.requests 0 [] s

end Sys2Proof.Machine
end

