-- ==== Sys2Proof/Machine/Compensation.lean ====
section
/-! DEFINITION. The fixed-point compensation pipeline: COMP_T, COMP_P, COMP_H (42_compensation.md). The formulas are
those of R113, R118 to R121, R125 and R126, at a width `W` that the commands fix. -/

namespace Sys2Proof.Machine

/-- The named intermediates and results of COMP_T (R113). -/
structure Temperature where
  x1 : Fx
  m1 : Fx
  var1 : Fx
  x2 : Fx
  sq : Fx
  m2 : Fx
  var2 : Fx
  tFine : Fx
  temp : Fx
  deriving DecidableEq, Repr

/-- COMP_T's pseudocode (R113). DESIGN CHOICE, log entry 18: with `T1` = `T2` = `T3` = 0 and `adc_T` at least 741456 the
overflow of `sq` sets `ovf`, as R106, R110, R113 and R114 say; R115 (a) says `ovf` = 0 there. -/
def compensateT (W : Nat) (c : Calibration) (adcT : BitVec 20) : Temperature :=
  let adc := unsignedFx adcT
  let t1 := unsignedFx c.T1
  let t2 := signedFx c.T2
  let t3 := signedFx c.T3
  let x1 := (adc.sar 3).sub W (t1.shl W 1)
  let m1 := x1.mul W t2
  let var1 := m1.sar 11
  let x2 := (adc.sar 4).sub W t1
  let sq := x2.mul W x2
  let m2 := (sq.sar 12).mul W t3
  let var2 := m2.sar 14
  let tFine := var1.add W var2
  let temp := ((tFine.mul W (Fx.lit 5)).add W (Fx.lit 128)).sar 8
  { x1, m1, var1, x2, sq, m2, var2, tFine, temp }

/-- The first part of COMP_P (R118): the terms the second part uses. -/
structure PressureTerms where
  v1 : Fx
  q : Fx
  v2 : Fx
  w1 : Fx
  w2 : Fx
  deriving DecidableEq, Repr

/-- COMP_P's pseudocode, first part (R118). -/
def pressureTerms (W : Nat) (p1u : Bool) (c : Calibration) (tFine : BitVec 32) : PressureTerms :=
  let v1 := (signedFx tFine).sub W (Fx.lit 128000)
  let q := v1.mul W v1
  let v2a := q.mul W (signedFx c.P6)
  let v2b := v2a.add W ((v1.mul W (signedFx c.P5)).shl W 17)
  let v2 := v2b.add W ((signedFx c.P4).shl W 35)
  let w1 := ((q.mul W (signedFx c.P3)).sar 8).add W ((v1.mul W (signedFx c.P2)).shl W 12)
  let w2 := (((Fx.lit 140737488355328).add W w1).mul W (widenP1 p1u c.P1)).sar 33
  { v1, q, v2, w1, w2 }

/-- COMP_P's pseudocode, second part (R120), reached only when `w2` ≠ 0. -/
def pressureQuotient (W : Nat) (c : Calibration) (t : PressureTerms) (adcP : BitVec 20) : Fx :=
  let p0 := (Fx.lit 1048576).sub W (unsignedFx adcP)
  let num := ((p0.shl W 31).sub W t.v2).mul W (Fx.lit 3125)
  let p1 := num.quot W t.w2
  let s := p1.sar 13
  let w3 := (((signedFx c.P9).mul W s).mul W s).sar 25
  let v3 := ((signedFx c.P8).mul W p1).sar 19
  (((p1.add W w3).add W v3).sar 8).add W ((signedFx c.P7).shl W 4)

/-- COMP_P (R118 to R120): the zero guard of R119 answers 0, with `ovf` as accumulated by the first part. -/
def compensateP (W : Nat) (p1u : Bool) (c : Calibration) (adcP : BitVec 20) (tFine : BitVec 32) : Fx :=
  let t := pressureTerms W p1u c tFine
  if t.w2.val = 0 then ⟨0, t.v2.ovf || t.w2.ovf⟩ else pressureQuotient W c t adcP

/-- COMP_H's pseudocode up to `y` (R125). -/
def humidityRaw (W : Nat) (c : Calibration) (adcH : BitVec 16) (tFine : BitVec 32) : Fx :=
  let v := (signedFx tFine).sub W (Fx.lit 76800)
  let a1 := (((unsignedFx adcH).shl W 14).sub W ((signedFx c.H4).shl W 20)).sub W ((signedFx c.H5).mul W v)
  let a2 := (a1.add W (Fx.lit 16384)).sar 15
  let b1 := (v.mul W (signedFx c.H6)).sar 10
  let b2 := ((v.mul W (unsignedFx c.H3)).sar 11).add W (Fx.lit 32768)
  let b3 := ((b1.mul W b2).sar 10).add W (Fx.lit 2097152)
  let b4 := ((b3.mul W (signedFx c.H2)).add W (Fx.lit 8192)).sar 14
  let x := a2.mul W b4
  let s := x.sar 15
  let e := (((s.mul W s).sar 7).mul W (unsignedFx c.H1)).sar 4
  x.sub W e

/-- The clamp to the closed range `[0, H_CLAMP_MAX]` (R126). -/
def clampH (y : Int) : Int :=
  if y < 0 then 0 else if y > hClampMax then hClampMax else y

/-- COMP_H (R125, R126): the clamp leaves `ovf` as it was. -/
def compensateH (W : Nat) (c : Calibration) (adcH : BitVec 16) (tFine : BitVec 32) : Fx :=
  let y := humidityRaw W c adcH tFine
  ⟨clampH y.val / 2 ^ 12, y.ovf⟩

/-- The one check the compensation commands need after decoding: calibration loaded (R112, R117, R124, R134). -/
def needsCalibration (s : State) : Option Status := checkOrder false true false s.calValid

/-- The response of COMP_T (R112): `res[63:32]` the fine temperature, `res[31:0]` the temperature. -/
def compTCommit (adcT : BitVec 20) (s : State) : State :=
  let t := compensateT widthTH s.cal adcT
  s.respond t.temp.ovf (asU32 t.tFine.val ++ asU32 t.temp.val)

/-- COMP_T: no bus phase (R112). -/
def compTCommand (adcT : BitVec 20) : Command :=
  { instr := .compT adcT
    check := needsCalibration
    requests := []
    failStatus := busFailure
    commit := fun _ => compTCommit adcT }

/-- COMP_T (R112). -/
def execCompT (adcT : BitVec 20) (s : State) : Host.Outcome State Fault Refusal := .next ((compTCommand adcT).run s)

/-- The response of COMP_P (R117, R121): `res[31:0]` the low 32 bits of the result. -/
def compPCommit (adcP : BitVec 20) (tFine : BitVec 32) (s : State) : State :=
  let p := compensateP widthP p1Unsigned s.cal adcP tFine
  s.respond p.ovf ((asU32 p.val).zeroExtend 64)

/-- COMP_P: no bus phase (R117). -/
def compPCommand (adcP : BitVec 20) (tFine : BitVec 32) : Command :=
  { instr := .compP adcP tFine
    check := needsCalibration
    requests := []
    failStatus := busFailure
    commit := fun _ => compPCommit adcP tFine }

/-- COMP_P (R117). -/
def execCompP (adcP : BitVec 20) (tFine : BitVec 32) (s : State) : Host.Outcome State Fault Refusal :=
  .next ((compPCommand adcP tFine).run s)

/-- The response of COMP_H (R124, R126): `res[31:0]` the humidity. -/
def compHCommit (adcH : BitVec 16) (tFine : BitVec 32) (s : State) : State :=
  let h := compensateH widthTH s.cal adcH tFine
  s.respond h.ovf ((asU32 h.val).zeroExtend 64)

/-- COMP_H: no bus phase (R124). -/
def compHCommand (adcH : BitVec 16) (tFine : BitVec 32) : Command :=
  { instr := .compH adcH tFine
    check := needsCalibration
    requests := []
    failStatus := busFailure
    commit := fun _ => compHCommit adcH tFine }

/-- COMP_H (R124). -/
def execCompH (adcH : BitVec 16) (tFine : BitVec 32) (s : State) : Host.Outcome State Fault Refusal :=
  .next ((compHCommand adcH tFine).run s)

end Sys2Proof.Machine
end

