-- ==== Sys2Proof/Machine/Loader.lean ====
section
/-! DEFINITION. The calibration unpacker and identity hash: LOAD_CAL (40_calibration.md). -/

namespace Sys2Proof.Machine

/-- A 2-byte little-endian quantity whose low byte is byte `k` (R40 a, b). -/
def littleEndian (bytes : List Byte) (k : Nat) : BitVec 16 :=
  byteAt bytes (k + 1) ++ byteAt bytes k

/-- `H4 = (B3 << 4) | (B4 & 0xF)` on unsigned bytes, in 16 bits (R77). -/
def unpackH4 (b3 b4 : Byte) : BitVec 16 :=
  (b3.zeroExtend 16 <<< 4) ||| (b4.zeroExtend 16 &&& 0xF)

/-- `H5 = (B4 >> 4) | (B5 << 4)` on unsigned bytes, in 16 bits (R78). -/
def unpackH5 (b4 b5 : Byte) : BitVec 16 :=
  (b4.zeroExtend 16 >>> 4) ||| (b5.zeroExtend 16 <<< 4)

/-- The 18 constants of the 32 bytes read (R73 to R79): the 24-byte block at offset 0, H1 at 24, B[0..6] at 25. -/
def unpack (bytes : List Byte) : Calibration :=
  { T1 := littleEndian bytes 0
    T2 := littleEndian bytes 2
    T3 := littleEndian bytes 4
    P1 := littleEndian bytes 6
    P2 := littleEndian bytes 8
    P3 := littleEndian bytes 10
    P4 := littleEndian bytes 12
    P5 := littleEndian bytes 14
    P6 := littleEndian bytes 16
    P7 := littleEndian bytes 18
    P8 := littleEndian bytes 20
    P9 := littleEndian bytes 22
    H1 := byteAt bytes 24
    H2 := littleEndian bytes 25
    H3 := byteAt bytes 27
    H4 := unpackH4 (byteAt bytes 28) (byteAt bytes 29)
    H5 := unpackH5 (byteAt bytes 29) (byteAt bytes 30)
    H6 := byteAt bytes 31 }

/-- The two bytes of a 16-bit constant in the image, low byte first (R81). -/
def lowFirst (x : BitVec 16) : List Byte := [x.extractLsb' 0 8, x.extractLsb' 8 8]

/-- The 9-byte image of HCalibration: the six constants in field order, no padding (R81). -/
def humidityBytes (c : Calibration) : List Byte :=
  [c.H1] ++ lowFirst c.H2 ++ [c.H3] ++ lowFirst c.H4 ++ lowFirst c.H5 ++ [c.H6]

/-- The 33-byte image: the 24-byte block as read, then the image of HCalibration (R81). -/
def hashImage (bytes : List Byte) : List Byte :=
  bytes.take 24 ++ humidityBytes (unpack bytes)

/-- One step of FNV-1a: XOR, then multiply modulo 2^32 (R80). -/
def fnvStep (hash : BitVec 32) (byte : Byte) : BitVec 32 :=
  (hash ^^^ byte.zeroExtend 32) * fnvPrime

/-- FNV-1a over a byte image (R80). -/
def fnv1a (image : List Byte) : BitVec 32 := image.foldl fnvStep fnvBasis

/-- The one indivisible commit step (R82). -/
def loadCalCommit (bytes : List Byte) (s : State) : State :=
  let identity := fnv1a (hashImage bytes)
  { s with cal := unpack bytes, calValid := true, identity := identity }.respond false (identity.zeroExtend 64)

/-- LOAD_CAL: no preconditions (R71), the three reads of R72, the commit of R82; any failure raises `ST_BUS` (R83). -/
def loadCalCommand : Command :=
  { instr := .loadCal
    check := fun _ => none
    requests := memRead 0x88 24 ++ memRead 0xA1 1 ++ memRead 0xE1 7
    failStatus := busFailure
    commit := loadCalCommit }

/-- LOAD_CAL (R71). -/
def execLoadCal (s : State) : Host.Outcome State Fault Refusal := .next (loadCalCommand.run s)

end Sys2Proof.Machine
end

