-- ==== Sys2Proof/Machine/Sequencer.lean ====
section
/-! DEFINITION. The measurement sequencer: PROBE, CONFIGURE, START, IS_BUSY, READ_SAMPLE (41_sequencer.md). -/

namespace Sys2Proof.Machine

/-- A 1-bit answer as a payload: `zext_64` of it (R59). -/
def bitPayload (b : Bool) : BitVec 64 := (BitVec.ofBool b).zeroExtend 64

/-- PROBE's last lines: `present` is 1 exactly when the identifier equals `CHIP_ID` (R86). -/
def probeCommit (bytes : List Byte) (s : State) : State :=
  s.respond false (bitPayload (byteAt bytes 0 == chipId))

/-- PROBE: no preconditions, one read of 0xD0 (R86). -/
def probeCommand : Command :=
  { instr := .probe
    check := fun _ => none
    requests := memRead 0xD0 1
    failStatus := busFailure
    commit := probeCommit }

/-- PROBE (R86). -/
def execProbe (s : State) : Host.Outcome State Fault Refusal := .next (probeCommand.run s)

/-- CONFIGURE's last lines: `SEQ <- Configured; respond(0)` (R87). -/
def configureCommit (_ : List Byte) (s : State) : State :=
  { s with seq := .configured }.respond false 0

/-- CONFIGURE: admitted only in Uninitialized with calibration loaded; one write of 0xF5 (R87). -/
def configureCommand (period filter : BitVec 3) : Command :=
  { instr := .configure period filter
    check := fun s => checkOrder (filterReserved filter) true (s.seq != .uninitialized) s.calValid
    requests := memWrite 0xF5 (configImage period filter)
    failStatus := busFailure
    commit := configureCommit }

/-- CONFIGURE (R87). -/
def execConfigure (period filter : BitVec 3) (s : State) : Host.Outcome State Fault Refusal :=
  .next ((configureCommand period filter).run s)

/-- The states START is admitted in: Configured and Idle (R85, R88). -/
def startAdmitted (q : SeqState) : Bool := q == .configured || q == .idle

/-- START's last lines: `SEQ <- Measuring; respond(0)` (R88). -/
def startCommit (_ : List Byte) (s : State) : State :=
  { s with seq := .measuring }.respond false 0

/-- A failure of START's first write raises `ST_BUS`, of its second `ST_BUS_PARTIAL` (R88, R89, R137). -/
def startFailure : Nat → Status
  | 0 => .bus
  | _ => .busPartial

/-- START: 0xF2 is written before 0xF4 (R88). -/
def startCommand (osrsH osrsT osrsP : BitVec 3) (mode : BitVec 2) : Command :=
  { instr := .start osrsH osrsT osrsP mode
    check := fun s =>
      checkOrder
        (modeReserved mode || oversamplingReserved osrsT || oversamplingReserved osrsP || oversamplingReserved osrsH)
        true (!startAdmitted s.seq) s.calValid
    requests := memWrite 0xF2 (humidityImage osrsH) ++ memWrite 0xF4 (measureImage osrsT osrsP mode)
    failStatus := startFailure
    commit := startCommit }

/-- START (R88). -/
def execStart (osrsH osrsT osrsP : BitVec 3) (mode : BitVec 2) (s : State) : Host.Outcome State Fault Refusal :=
  .next ((startCommand osrsH osrsT osrsP mode).run s)

/-- `busy`: status bit 3 (measuring) or bit 0 (NVM update) is set (R46, R90). -/
def busyOf (status : Byte) : Bool := (status &&& 0x09#8) != 0#8

/-- The `SEQ` update of a successful IS_BUSY (R91). -/
def seqAfterPoll (q : SeqState) (busy : Bool) : SeqState :=
  match q, busy with
  | .measuring, false => .idle
  | .idle, true => .measuring
  | q, _ => q

/-- IS_BUSY's last lines (R90, R91). -/
def isBusyCommit (bytes : List Byte) (s : State) : State :=
  let busy := busyOf (byteAt bytes 0)
  { s with seq := seqAfterPoll s.seq busy }.respond false (bitPayload busy)

/-- IS_BUSY: no preconditions, one read of 0xF3 (R90). -/
def isBusyCommand : Command :=
  { instr := .isBusy
    check := fun _ => none
    requests := memRead 0xF3 1
    failStatus := busFailure
    commit := isBusyCommit }

/-- IS_BUSY (R90). -/
def execIsBusy (s : State) : Host.Outcome State Fault Refusal := .next (isBusyCommand.run s)

/-- `assemble20`: `(b0<<12)|(b1<<4)|(b2>>4)` in 20 bits (R93). -/
def assemble20 (b0 b1 b2 : Byte) : BitVec 20 :=
  (b0.zeroExtend 20 <<< 12) ||| (b1.zeroExtend 20 <<< 4) ||| (b2.zeroExtend 20 >>> 4)

/-- `assemble16`: `(b0<<8)|b1` in 16 bits (R94). -/
def assemble16 (b0 b1 : Byte) : BitVec 16 :=
  (b0.zeroExtend 16 <<< 8) ||| b1.zeroExtend 16

/-- The payload of READ_SAMPLE (R59, R92). -/
def samplePayload (adcT adcP : BitVec 20) (adcH : BitVec 16) : BitVec 64 :=
  adcT.zeroExtend 64 ||| (adcP.zeroExtend 64 <<< 20) ||| (adcH.zeroExtend 64 <<< 40)

/-- READ_SAMPLE's last lines (R92): temperature bytes first, then pressure, then humidity. -/
def readSampleCommit (bytes : List Byte) (s : State) : State :=
  s.respond false
    (samplePayload
      (assemble20 (byteAt bytes 0) (byteAt bytes 1) (byteAt bytes 2))
      (assemble20 (byteAt bytes 3) (byteAt bytes 4) (byteAt bytes 5))
      (assemble16 (byteAt bytes 6) (byteAt bytes 7)))

/-- READ_SAMPLE: no preconditions, three reads (R92). -/
def readSampleCommand : Command :=
  { instr := .readSample
    check := fun _ => none
    requests := memRead 0xFA 3 ++ memRead 0xF7 3 ++ memRead 0xFD 2
    failStatus := busFailure
    commit := readSampleCommit }

/-- READ_SAMPLE (R92). -/
def execReadSample (s : State) : Host.Outcome State Fault Refusal := .next (readSampleCommand.run s)

end Sys2Proof.Machine
end

