-- ==== Sys2Proof/Machine/Dispatch.lean ====
section
/-! DEFINITION. exec: one arm per command. -/

namespace Sys2Proof.Machine

def exec (i : Instr) (s : State) : Host.Outcome State Fault Refusal :=
  match i with
  | .probe => Sys2Proof.Machine.execProbe s
  | .loadCal => Sys2Proof.Machine.execLoadCal s
  | .configure period filter => Sys2Proof.Machine.execConfigure period filter s
  | .start osrsH osrsT osrsP mode => Sys2Proof.Machine.execStart osrsH osrsT osrsP mode s
  | .isBusy => Sys2Proof.Machine.execIsBusy s
  | .readSample => Sys2Proof.Machine.execReadSample s
  | .compT adcT => Sys2Proof.Machine.execCompT adcT s
  | .compP adcP tFine => Sys2Proof.Machine.execCompP adcP tFine s
  | .compH adcH tFine => Sys2Proof.Machine.execCompH adcH tFine s

end Sys2Proof.Machine
end

