-- ==== Sys2Proof/Machine/Port.lean ====
section
/-! DEFINITION. The command port and the reset input: what the block does next, accepting a word, going on with a command
in flight, and reset (R53, R147, R148). -/

namespace Sys2Proof.Machine

/-- What a decoded command is made of; `exec` runs it from its checks on. -/
def commandOf : Instr → Command
  | .probe => probeCommand
  | .loadCal => loadCalCommand
  | .configure period filter => configureCommand period filter
  | .start osrsH osrsT osrsP mode => startCommand osrsH osrsT osrsP mode
  | .isBusy => isBusyCommand
  | .readSample => readSampleCommand
  | .compT adcT => compTCommand adcT
  | .compP adcP tFine => compPCommand adcP tFine
  | .compH adcH tFine => compHCommand adcH tFine

/-- A command in flight goes on from the phase it waits at, with the bytes it has read (R21, R22). Its checks are not made again. -/
def resume (f : Flight) (s : State) : State :=
  let c := commandOf f.cmd
  c.issue (c.requests.drop f.phase) f.phase f.staged s

/-- The request a command in flight has handed to the transport and has no answer to (R148). -/
def outstanding (f : Flight) : List Request :=
  ((commandOf f.cmd).requests.drop f.phase).take 1

/-- The requests reset abandons, as trace entries without an answer (R148). -/
def abandonedPhases (s : State) : List BusPhase :=
  match s.flight with
  | none => []
  | some f => (outstanding f).map fun r => ⟨r, none⟩

/-- Reset of the block (R27, R147, R148, R149): every register takes its reset value, a command in flight is abandoned
without a response, and no phase is issued. -/
def resetBlock (s : State) : State :=
  { s with
    cal := Calibration.zero
    calValid := false
    identity := 0
    seq := .uninitialized
    flight := none
    trace := s.trace ++ abandonedPhases s }

/-- What the next step of the block is. -/
inductive Activity where
  /-- Reset is asserted; the host goes on with `later`. -/
  | reset (later : List HostEvent)
  /-- A command is in flight: the port accepts nothing (R53). -/
  | inFlight (f : Flight)
  /-- The port is free and a word is presented (R53). -/
  | accept (w : CmdWord) (later : List HostEvent)
  /-- The port is free and nothing is presented. -/
  | idle
  deriving DecidableEq, Repr

/-- Reset acts at any time (R148, R160); a word is accepted only while no command is in flight (R53). -/
def activity (s : State) : Activity :=
  match s.host, s.flight with
  | .reset :: later, _ => .reset later
  | _, some f => .inFlight f
  | .command w :: later, none => .accept w later
  | [], none => .idle

/-- The host's presented word has been sampled (R53): it is no longer on the port. -/
def State.takeHost (s : State) (later : List HostEvent) : State := { s with host := later }

/-- Accept a word (R53, R60, R66): an illegal word completes with `ST_ILLEGAL`, any other is performed. -/
def accept (w : CmdWord) (s : State) : Host.Outcome State Fault Refusal :=
  match decode w with
  | .ok i => exec i s
  | .error _ => .next (s.raise .illegal)

/-- Put a word on the command port as the next thing the host does, with the port free to accept it. -/
def present (s : State) (w : CmdWord) : State :=
  { s with flight := none, host := .command w :: s.host }

end Sys2Proof.Machine
end

