-- ==== Sys2Proof/Machine/Step.lean ====
section
/-! DEFINITION. One step of the block. -/

namespace Sys2Proof.Machine

/-- One step: reset, or going on with the command in flight, or accepting the presented word and performing it as far as
the transport answers, or nothing ("Between commands the block does nothing", R6). -/
def step (s : State) : Host.Outcome State Fault Refusal :=
  match activity s with
  | .reset later => .next (resetBlock (s.takeHost later))
  | .inFlight f => .next (resume f s)
  | .accept w later => accept w (s.takeHost later)
  | .idle => .next s

/-- `s` with a table word presented on a free command port, so that the next step accepts it. -/
def State.withFetchWord (s : State) (nbits w : Nat) : State := present s (tableWord nbits w)

end Sys2Proof.Machine
end

