-- ==== Sys2Proof/Machine/Datapath.lean ====
section
/-! DEFINITION. A second rendering of the compensation formulas, as fixed-width bit-vector datapaths (R105 to R109):
two's complement words that wrap by themselves, with one overflow detector per operation. The block's own rendering
(Machine/Compensation.lean) computes exact integers and narrows; claims compare the two. -/

namespace Sys2Proof.Machine

/-- A left shift lost bits exactly when shifting back does not restore the word (R107). -/
def shlOverflow {w : Nat} (x : BitVec w) (n : Nat) : Bool := (x <<< n).sshiftRight n != x

/-- What a datapath returns: a word and the overflow indication. -/
structure Wires (w : Nat) where
  out : BitVec w
  ovf : Bool
  deriving DecidableEq, Repr

/-- The fine temperature datapath (R113), 32 bits. -/
def fineTemperatureWires (c : Calibration) (adcT : BitVec 20) : Wires 32 :=
  let adc := adcT.zeroExtend 32
  let t1 := c.T1.zeroExtend 32
  let t2 := c.T2.signExtend 32
  let t3 := c.T3.signExtend 32
  let x1 := adc.sshiftRight 3 - t1 <<< 1
  let m1 := x1 * t2
  let x2 := adc.sshiftRight 4 - t1
  let sq := x2 * x2
  let m2 := sq.sshiftRight 12 * t3
  let tFine := m1.sshiftRight 11 + m2.sshiftRight 14
  ⟨tFine,
    shlOverflow t1 1 || BitVec.ssubOverflow (adc.sshiftRight 3) (t1 <<< 1) || BitVec.smulOverflow x1 t2
      || BitVec.ssubOverflow (adc.sshiftRight 4) t1 || BitVec.smulOverflow x2 x2
      || BitVec.smulOverflow (sq.sshiftRight 12) t3
      || BitVec.saddOverflow (m1.sshiftRight 11) (m2.sshiftRight 14)⟩

/-- The last line of COMP_T (R113), 32 bits: `T = (t_fine * 5 + 128) >> 8`. -/
def temperatureWires (c : Calibration) (adcT : BitVec 20) : Wires 32 :=
  let t := fineTemperatureWires c adcT
  let scaled := t.out * 5#32
  ⟨(scaled + 128#32).sshiftRight 8,
    t.ovf || BitVec.smulOverflow t.out 5#32 || BitVec.saddOverflow scaled 128#32⟩

/-- P1 on the 64-bit datapath under either reading (R111). -/
def p1Wires (p1u : Bool) (x : BitVec 16) : BitVec 64 :=
  if p1u then x.zeroExtend 64 else x.signExtend 64

/-- COMP_P's `v2` (R118), 64 bits. -/
def pressureOffsetWires (c : Calibration) (tFine : BitVec 32) : Wires 64 :=
  let f := tFine.signExtend 64
  let p4 := c.P4.signExtend 64
  let p5 := c.P5.signExtend 64
  let p6 := c.P6.signExtend 64
  let v1 := f - 128000#64
  let q := v1 * v1
  let first := q * p6
  let second := first + (v1 * p5) <<< 17
  ⟨second + p4 <<< 35,
    BitVec.ssubOverflow f 128000#64 || BitVec.smulOverflow v1 v1 || BitVec.smulOverflow q p6
      || BitVec.smulOverflow v1 p5 || shlOverflow (v1 * p5) 17
      || BitVec.saddOverflow first ((v1 * p5) <<< 17)
      || shlOverflow p4 35 || BitVec.saddOverflow second (p4 <<< 35)⟩

/-- COMP_P's `w2` (R118), 64 bits. -/
def pressureDivisorWires (p1u : Bool) (c : Calibration) (tFine : BitVec 32) : Wires 64 :=
  let f := tFine.signExtend 64
  let p1 := p1Wires p1u c.P1
  let p2 := c.P2.signExtend 64
  let p3 := c.P3.signExtend 64
  let v1 := f - 128000#64
  let q := v1 * v1
  let w1 := (q * p3).sshiftRight 8 + (v1 * p2) <<< 12
  let sum := 0x0000800000000000#64 + w1
  ⟨(sum * p1).sshiftRight 33,
    BitVec.ssubOverflow f 128000#64 || BitVec.smulOverflow v1 v1 || BitVec.smulOverflow q p3
      || BitVec.smulOverflow v1 p2 || shlOverflow (v1 * p2) 12
      || BitVec.saddOverflow ((q * p3).sshiftRight 8) ((v1 * p2) <<< 12)
      || BitVec.saddOverflow 0x0000800000000000#64 w1 || BitVec.smulOverflow sum p1⟩

/-- COMP_P (R118 to R121), 64 bits, with the zero guard on the wrapped divisor (R119). -/
def pressureWires (p1u : Bool) (c : Calibration) (adcP : BitVec 20) (tFine : BitVec 32) : Wires 64 :=
  let v2 := pressureOffsetWires c tFine
  let w2 := pressureDivisorWires p1u c tFine
  let early := v2.ovf || w2.ovf
  if w2.out = 0#64 then ⟨0#64, early⟩
  else
    let adc := adcP.zeroExtend 64
    let p7 := c.P7.signExtend 64
    let p8 := c.P8.signExtend 64
    let p9 := c.P9.signExtend 64
    let p0 := 1048576#64 - adc
    let diff := p0 <<< 31 - v2.out
    let num := diff * 3125#64
    let p1 := num.sdiv w2.out
    let s := p1.sshiftRight 13
    let w3 := (p9 * s * s).sshiftRight 25
    let v3 := (p8 * p1).sshiftRight 19
    let sum := p1 + w3 + v3
    ⟨sum.sshiftRight 8 + p7 <<< 4,
      early || BitVec.ssubOverflow 1048576#64 adc || shlOverflow p0 31
        || BitVec.ssubOverflow (p0 <<< 31) v2.out || BitVec.smulOverflow diff 3125#64
        || BitVec.sdivOverflow num w2.out
        || BitVec.smulOverflow p9 s || BitVec.smulOverflow (p9 * s) s || BitVec.smulOverflow p8 p1
        || BitVec.saddOverflow p1 w3 || BitVec.saddOverflow (p1 + w3) v3
        || shlOverflow p7 4 || BitVec.saddOverflow (sum.sshiftRight 8) (p7 <<< 4)⟩

/-- COMP_H's `y` (R125), 32 bits. -/
def humidityWires (c : Calibration) (adcH : BitVec 16) (tFine : BitVec 32) : Wires 32 :=
  let adc := adcH.zeroExtend 32
  let h1 := c.H1.zeroExtend 32
  let h2 := c.H2.signExtend 32
  let h3 := c.H3.zeroExtend 32
  let h4 := c.H4.signExtend 32
  let h5 := c.H5.signExtend 32
  let h6 := c.H6.signExtend 32
  let v := tFine - 76800#32
  let d := adc <<< 14 - h4 <<< 20
  let a1 := d - h5 * v
  let a2 := (a1 + 16384#32).sshiftRight 15
  let b1 := (v * h6).sshiftRight 10
  let b2 := (v * h3).sshiftRight 11 + 32768#32
  let b3 := (b1 * b2).sshiftRight 10 + 2097152#32
  let b4 := (b3 * h2 + 8192#32).sshiftRight 14
  let x := a2 * b4
  let s := x.sshiftRight 15
  let g := (s * s).sshiftRight 7
  let e := (g * h1).sshiftRight 4
  ⟨x - e,
    BitVec.ssubOverflow tFine 76800#32 || shlOverflow adc 14 || shlOverflow h4 20
      || BitVec.ssubOverflow (adc <<< 14) (h4 <<< 20) || BitVec.smulOverflow h5 v || BitVec.ssubOverflow d (h5 * v)
      || BitVec.saddOverflow a1 16384#32 || BitVec.smulOverflow v h6 || BitVec.smulOverflow v h3
      || BitVec.saddOverflow ((v * h3).sshiftRight 11) 32768#32 || BitVec.smulOverflow b1 b2
      || BitVec.saddOverflow ((b1 * b2).sshiftRight 10) 2097152#32 || BitVec.smulOverflow b3 h2
      || BitVec.saddOverflow (b3 * h2) 8192#32 || BitVec.smulOverflow a2 b4
      || BitVec.smulOverflow s s || BitVec.smulOverflow g h1 || BitVec.ssubOverflow x e⟩

/-- The clamp and the final scale-down (R126), as signed comparisons on the 32-bit `y`. -/
def clampWires (y : BitVec 32) : BitVec 32 :=
  if y.slt 0#32 then 0#32
  else if BitVec.slt 419430400#32 y then 419430400#32 >>> 12
  else y >>> 12

end Sys2Proof.Machine
end

