-- ==== Sys2Proof/Machine/Exact.lean ====
section
/-! DEFINITION. The compensation formulas over unbounded integers: the "exact mathematical value" every intermediate
equals when `ovf` = 0 (R110). The block never evaluates these; claims compare the pipeline with them. -/

namespace Sys2Proof.Machine

/-- P1 as an integer under either reading (R15). -/
def exactP1 (p1u : Bool) (x : BitVec 16) : Int := if p1u then x.toNat else x.toInt

/-- COMP_T over the integers (R113): the fine temperature and the temperature. -/
def exactT (c : Calibration) (adcT : BitVec 20) : Int × Int :=
  let adc : Int := adcT.toNat
  let t1 : Int := c.T1.toNat
  let var1 := ((adc / 2 ^ 3 - t1 * 2 ^ 1) * c.T2.toInt) / 2 ^ 11
  let x2 := adc / 2 ^ 4 - t1
  let var2 := ((x2 * x2 / 2 ^ 12) * c.T3.toInt) / 2 ^ 14
  let tFine := var1 + var2
  (tFine, (tFine * 5 + 128) / 2 ^ 8)

/-- COMP_P's divisor over the integers (R118). -/
def exactW2 (p1u : Bool) (c : Calibration) (tFine : BitVec 32) : Int :=
  let v1 := tFine.toInt - 128000
  let q := v1 * v1
  let w1 := q * c.P3.toInt / 2 ^ 8 + v1 * c.P2.toInt * 2 ^ 12
  (140737488355328 + w1) * exactP1 p1u c.P1 / 2 ^ 33

/-- COMP_P over the integers (R118 to R120). -/
def exactP (p1u : Bool) (c : Calibration) (adcP : BitVec 20) (tFine : BitVec 32) : Int :=
  let v1 := tFine.toInt - 128000
  let q := v1 * v1
  let v2 := q * c.P6.toInt + v1 * c.P5.toInt * 2 ^ 17 + c.P4.toInt * 2 ^ 35
  let w2 := exactW2 p1u c tFine
  let p1 := ((((1048576 - (adcP.toNat : Int)) * 2 ^ 31) - v2) * 3125).tdiv w2
  let s := p1 / 2 ^ 13
  let w3 := c.P9.toInt * s * s / 2 ^ 25
  let v3 := c.P8.toInt * p1 / 2 ^ 19
  if w2 = 0 then 0 else (p1 + w3 + v3) / 2 ^ 8 + c.P7.toInt * 2 ^ 4

/-- COMP_H's `y` over the integers (R125). -/
def exactY (c : Calibration) (adcH : BitVec 16) (tFine : BitVec 32) : Int :=
  let v := tFine.toInt - 76800
  let a1 := (adcH.toNat : Int) * 2 ^ 14 - c.H4.toInt * 2 ^ 20 - c.H5.toInt * v
  let a2 := (a1 + 16384) / 2 ^ 15
  let b1 := v * c.H6.toInt / 2 ^ 10
  let b2 := v * (c.H3.toNat : Int) / 2 ^ 11 + 32768
  let b3 := b1 * b2 / 2 ^ 10 + 2097152
  let b4 := (b3 * c.H2.toInt + 8192) / 2 ^ 14
  let x := a2 * b4
  let s := x / 2 ^ 15
  let e := s * s / 2 ^ 7 * (c.H1.toNat : Int) / 2 ^ 4
  x - e

/-- COMP_H over the integers (R125, R126). -/
def exactH (c : Calibration) (adcH : BitVec 16) (tFine : BitVec 32) : Int :=
  let y := exactY c adcH tFine
  let z : Int := if y < 0 then 0 else if y > 419430400 then 419430400 else y
  z / 2 ^ 12

end Sys2Proof.Machine
end

