-- ==== Sys2Proof/Safety.lean ====
section
/-! DEFINITION. The terms the claims use: the bus trace each command's rule writes down, what a list of answers does to a
list of requests, the registers a command may not touch, and the invariants of the block. -/

namespace Sys2Proof.Machine

/-! ### The bus phases of a command, as its rule lists them -/

/-- The full bus trace of a successful command (R72, R86 to R92, R112, R117, R124), with the register images of R47 to
R49 written as bit fields. -/
def ruledRequests : Instr → List Request
  | .probe => [.sel 0xD0, .rd 1]
  | .loadCal => [.sel 0x88, .rd 24, .sel 0xA1, .rd 1, .sel 0xE1, .rd 7]
  | .configure period filter => [.wr 0xF5 (period ++ filter ++ 0#2)]
  | .start osrsH osrsT osrsP mode => [.wr 0xF2 (0#5 ++ osrsH), .wr 0xF4 (osrsT ++ osrsP ++ mode)]
  | .isBusy => [.sel 0xF3, .rd 1]
  | .readSample => [.sel 0xFA, .rd 3, .sel 0xF7, .rd 3, .sel 0xFD, .rd 2]
  | .compT _ => []
  | .compP _ _ => []
  | .compH _ _ => []

/-- The commands that need calibration (R138). -/
def needsCal : Instr → Bool
  | .configure _ _ => true
  | .start _ _ _ _ => true
  | .compT _ => true
  | .compP _ _ => true
  | .compH _ _ => true
  | .probe => false
  | .loadCal => false
  | .isBusy => false
  | .readSample => false

/-- The `SEQ` states a command is admitted in (R85, R139). -/
def admitted : Instr → SeqState → Bool
  | .configure _ _, q => q == .uninitialized
  | .start _ _ _ _, q => q == .configured || q == .idle
  | .probe, _ => true
  | .loadCal, _ => true
  | .isBusy, _ => true
  | .readSample, _ => true
  | .compT _, _ => true
  | .compP _ _, _ => true
  | .compH _ _, _ => true

/-- The conditions on the state and the operands under which a command passes steps 2 to 4 of R134. -/
def Accepted (i : Instr) (s : State) : Prop :=
  i.WellFormed = true ∧ (needsCal i = true → s.calValid = true) ∧ admitted i s.seq = true

/-! ### Answers -/

/-- Every one of the answers makes its request's phase succeed (R33), one answer for each request. -/
def AllSucceed : List Request → List Answer → Prop
  | [], [] => True
  | r :: rs, a :: as => a.succeeds r = true ∧ AllSucceed rs as
  | [], _ :: _ => False
  | _ :: _, [] => False

/-- The bytes a list of answers delivers to a list of requests, in order (R36, R39). -/
def deliveredBytes : List Request → List Answer → List Byte
  | r :: rs, a :: as => a.delivers r ++ deliveredBytes rs as
  | _, _ => []

/-- The trace entries of requests with their answers (R33). -/
def answeredPhases : List Request → List Answer → List BusPhase
  | r :: rs, a :: as => ⟨r, some a⟩ :: answeredPhases rs as
  | _, _ => []

/-- The transport answers with `as` in order and then goes on with `later`. -/
def answersThen (as : List Answer) (later : List BusEvent) : List BusEvent :=
  as.map .answer ++ later

/-- A command has ended with the response `r`: nothing is in flight, the transport goes on with `later`, and `phases`
have been added to the trace. Every other part of the state is as it was. -/
def State.ended (s : State) (later : List BusEvent) (phases : List BusPhase) (r : Response) : State :=
  { s with flight := none, bus := later, trace := s.trace ++ phases, responses := s.responses ++ [r] }

/-- A command is refused with the status `st` before any phase (R132, R134): the bus is not touched. -/
def State.refusedWith (s : State) (st : Status) : State :=
  { s with flight := none, responses := s.responses ++ [⟨st, false, 0⟩] }

/-! ### What a command may not touch -/

/-- The registers of the block (R13): all 18 constants, `CAL_VALID`, `IDENTITY`, `SEQ`. -/
def SameRegisters (s t : State) : Prop :=
  t.cal = s.cal ∧ t.calValid = s.calValid ∧ t.identity = s.identity ∧ t.seq = s.seq

/-- Reset is what the host does next. -/
def ResetNext (s : State) : Prop := ∃ later, s.host = .reset :: later

/-! ### Invariants -/

/-- The image of the constants as registers hold them: TPCalibration as little-endian 2-byte quantities, then the image
of HCalibration (R73, R81). -/
def registerImage (c : Calibration) : List Byte :=
  lowFirst c.T1 ++ lowFirst c.T2 ++ lowFirst c.T3 ++ lowFirst c.P1 ++ lowFirst c.P2 ++ lowFirst c.P3 ++ lowFirst c.P4
    ++ lowFirst c.P5 ++ lowFirst c.P6 ++ lowFirst c.P7 ++ lowFirst c.P8 ++ lowFirst c.P9 ++ humidityBytes c

/-- The number of bytes a list of requests reads. -/
def bytesWanted : List Request → Nat
  | [] => 0
  | .rd n :: rs => n + bytesWanted rs
  | .sel _ :: rs => bytesWanted rs
  | .wr _ _ :: rs => bytesWanted rs

/-- A command in flight is one the block has accepted: its checks hold, a phase of it is outstanding (R22), and the
staging area holds exactly the bytes of the phases answered (R21). -/
def FlightOk (s : State) : Prop :=
  match s.flight with
  | none => True
  | some f =>
    Accepted f.cmd s ∧ f.phase < (ruledRequests f.cmd).length
      ∧ f.staged.length = bytesWanted ((ruledRequests f.cmd).take f.phase)

/-- `cal.H4` and `cal.H5` lie in 0 .. 4095 (R16, R77, R78). -/
def NibbleRange (s : State) : Prop := s.cal.H4.toNat ≤ 4095 ∧ s.cal.H5.toNat ≤ 4095

/-- While `CAL_VALID` = 1, `IDENTITY` is the hash of the byte image of the constants (R17, R18, R81); while it is 0, the
constants, `IDENTITY` and `SEQ` hold their reset values (R27, R28). -/
def CalibrationOk (s : State) : Prop :=
  (s.calValid = true → s.identity = fnv1a (registerImage s.cal)) ∧
    (s.calValid = false → s.cal = Calibration.zero ∧ s.identity = 0 ∧ s.seq = .uninitialized)

/-- The invariant of the block's registers and control state. -/
def BlockInv (s : State) : Prop := NibbleRange s ∧ CalibrationOk s ∧ FlightOk s

/-- The requests the block ever issues: the registers of R31 with the widths of R43, and register images whose codes are
the enumerations' (R47 to R49, R61). The soft-reset register 0xE0 is not among them (R149). -/
def permittedRequest : Request → Bool
  | .sel reg => [0x88, 0xA1, 0xD0, 0xE1, 0xF3, 0xF7, 0xFA, 0xFD].contains reg
  | .rd n => [1, 2, 3, 7, 24].contains n
  | .wr reg val =>
    (reg == 0xF2 && val.toNat ≤ 5)
      || (reg == 0xF4 && (val.extractLsb' 5 3).toNat ≤ 5 && (val.extractLsb' 2 3).toNat ≤ 5
            && val.extractLsb' 0 2 != 2#2)
      || (reg == 0xF5 && (val.extractLsb' 2 3).toNat ≤ 4 && val.extractLsb' 0 2 == 0#2)

/-- A request comes right after the phase its rule puts before it: RD after a successful SEL (R34 to R36), the write of
0xF4 after a successful write of 0xF2 (R51, R88). -/
def followsRule (prev : Option BusPhase) (r : Request) : Bool :=
  match r with
  | .rd _ =>
    match prev with
    | some ⟨.sel _, some a⟩ => a.ok
    | _ => false
  | .wr reg _ =>
    if reg == 0xF4 then
      match prev with
      | some ⟨.wr before _, some a⟩ => before == 0xF2 && a.ok
      | _ => false
    else true
  | .sel _ => true

/-- Every phase of the trace is permitted and follows its rule, `prev` being the phase before the list. -/
def disciplined (prev : Option BusPhase) : List BusPhase → Bool
  | [] => true
  | p :: ps => permittedRequest p.request && followsRule prev p.request && disciplined (some p) ps

/-- The outstanding request of a command in flight follows the last phase of the trace as its rule demands. -/
def OutstandingFollows (s : State) : Prop :=
  match s.flight with
  | none => True
  | some f => ∀ r ∈ outstanding f, followsRule s.trace.getLast? r = true

/-- The invariant of the bus trace. -/
def TraceInv (s : State) : Prop := disciplined none s.trace = true ∧ FlightOk s ∧ OutstandingFollows s

end Sys2Proof.Machine
end

