-- ==== Sys2Proof/Certificates/Slice0/Obligations.lean ====
section
/-! DEFINITION. The statements for the provers, from the numbered rules of spec/. Each next state is written out whole:
`s.ended later phases r` and `s.refusedWith st` (Safety.lean) change the named parts of `s` and nothing else, so every
such equation is also the frame of its command. -/

open Sys2Proof Sys2Proof.Machine

/-! ### Encoding -/

/-- R66 (derived there): every command with its operands has a word that decodes to it; no bit of an operand is dropped. -/
def Obligations.DecodeInvertsEncode : Prop :=
  ∀ i : Instr, decode (encode i) = .ok i

/-- R66 (derived there): a word that decodes to a command is that command's only word. -/
def Obligations.EncodeInvertsDecode : Prop :=
  ∀ (w : CmdWord) (i : Instr), decode w = .ok i → encode i = w

/-- R70 (derived there): a word is the command of a row exactly when `(w & mask) == match`, of one row only, and a word
matching no row is illegal. -/
def Obligations.DecodeFollowsOpcodeTable : Prop :=
  (∀ (w : CmdWord) (i : Instr), decode w = .ok i →
      ∃ row ∈ opcodeTable, row.mnemonic = i.mnemonic ∧ row.covers w = true) ∧
  (∀ (w : CmdWord) (row : OpcodeRow), row ∈ opcodeTable → row.covers w = true →
      ∃ i, decode w = .ok i ∧ i.mnemonic = row.mnemonic) ∧
  (∀ w : CmdWord, (∀ row ∈ opcodeTable, row.covers w = false) → ∃ e, decode w = .error e)

/-- Words written out from R54 to R56 (95_test_vectors.md 2.1) decode to the commands they stand for. -/
def Obligations.WrittenWordsDecode : Prop :=
  decode 0x1000000000000000#64 = .ok .probe ∧
  decode 0x2000000000000000#64 = .ok .loadCal ∧
  decode 0x30000000000000B0#64 = .ok (.configure 5 4) ∧
  decode 0x4000000000000157#64 = .ok (.start 1 2 5 3) ∧
  decode 0x5000000000000000#64 = .ok .isBusy ∧
  decode 0x6000000000000000#64 = .ok .readSample ∧
  decode 0x8007EED000000000#64 = .ok (.compT 519888) ∧
  decode 0x900655ACFFFC88C5#64 = .ok (.compP 415148 (BitVec.ofInt 32 (-227131))) ∧
  decode 0xA000FFFF80000000#64 = .ok (.compH 65535 0x80000000) ∧
  decode 0xA0016E1F0001F5A6#64 = .error (.mustBeZero 0xA) ∧
  decode 0x0000000000000000#64 = .error (.reservedOpcode 0)

/-- R60: a word is illegal when its opcode is reserved or a must-be-zero bit of its command is 1; such a word completes
with `ST_ILLEGAL`, issues no bus phase and changes no state; every other word is a command. -/
def Obligations.IllegalWordsRefusedWithoutEffect : Prop :=
  ∀ w : CmdWord,
    let op := (w.extractLsb' 60 4).toNat
    let illegal : Prop :=
      op ∈ [0x0, 0x7, 0xB, 0xC, 0xD, 0xE, 0xF] ∨
      (op ∈ [0x1, 0x2, 0x5, 0x6] ∧ w.extractLsb' 0 60 ≠ 0#60) ∨
      (op = 0x3 ∧ (w.extractLsb' 8 52 ≠ 0#52 ∨ w.extractLsb' 0 2 ≠ 0#2)) ∨
      (op = 0x4 ∧ w.extractLsb' 11 49 ≠ 0#49) ∨
      (op = 0x8 ∧ (w.extractLsb' 52 8 ≠ 0#8 ∨ w.extractLsb' 0 32 ≠ 0#32)) ∨
      (op = 0x9 ∧ w.extractLsb' 52 8 ≠ 0#8) ∨
      (op = 0xA ∧ w.extractLsb' 48 12 ≠ 0#12)
    (illegal → ∀ (s : State) (later : List HostEvent), s.host = .command w :: later → s.flight = none →
      step s = .next { s with host := later, responses := s.responses ++ [⟨.illegal, false, 0⟩] }) ∧
    (¬ illegal → ∃ i, decode w = .ok i)

/-- R61: a legal word with a reserved operand code completes with `ST_OPERAND`, without bus phase or state change; all 8
values of `period` are legal. -/
def Obligations.ReservedCodesRefusedWithoutEffect : Prop :=
  (∀ (s : State) (period filter : BitVec 3), filter.toNat ∈ [5, 6, 7] →
      exec (.configure period filter) s = .next (s.refusedWith .operand)) ∧
  (∀ (s : State) (osrsH osrsT osrsP : BitVec 3) (mode : BitVec 2),
      mode = 2 ∨ osrsH.toNat ∈ [6, 7] ∨ osrsT.toNat ∈ [6, 7] ∨ osrsP.toNat ∈ [6, 7] →
      exec (.start osrsH osrsT osrsP mode) s = .next (s.refusedWith .operand)) ∧
  (∀ (s : State) (period filter : BitVec 3), filter.toNat ≤ 4 →
      exec (.configure period filter) s ≠ .next (s.refusedWith .operand))

/-- R47 to R49, R56 (derived there): the byte CONFIGURE writes to 0xF5 and the byte START writes to 0xF4 are bits 7:0 of
the command word, and the byte START writes to 0xF2 is `zext_8` of bits 10:8. -/
def Obligations.RegisterImagesAreCommandBits : Prop :=
  (∀ period filter : BitVec 3,
      configImage period filter = (encode (.configure period filter)).extractLsb' 0 8) ∧
  (∀ (osrsH osrsT osrsP : BitVec 3) (mode : BitVec 2),
      measureImage osrsT osrsP mode = (encode (.start osrsH osrsT osrsP mode)).extractLsb' 0 8 ∧
      humidityImage osrsH = ((encode (.start osrsH osrsT osrsP mode)).extractLsb' 8 3).zeroExtend 8)

/-- R19, R57, R131: the `SEQ` codes, the status codes and the packing of a response. -/
def Obligations.CodesAndPacking : Prop :=
  SeqState.uninitialized.code = 0b00 ∧ SeqState.configured.code = 0b01 ∧
  SeqState.idle.code = 0b10 ∧ SeqState.measuring.code = 0b11 ∧
  Status.ok.code = 0 ∧ Status.bus.code = 1 ∧ Status.busPartial.code = 2 ∧ Status.noCal.code = 3 ∧
  Status.badState.code = 4 ∧ Status.operand.code = 5 ∧ Status.illegal.code = 6 ∧
  ∀ r : Response, r.packed.extractLsb' 65 4 = r.status.code ∧
    r.packed.getLsbD 64 = r.ovf ∧ r.packed.extractLsb' 0 64 = r.res

/-! ### A step and the ports -/

/-- R53, R66: a presented word that decodes to a command is performed: the step is exec of it, once the word is off the
port. (The second clause, that `State.withFetchWord` presents a word on a free port, is the model's choice, log entry 3.) -/
def Obligations.StepRunsTheDecodedCommand : Prop :=
  (∀ (s : State) (w : CmdWord) (later : List HostEvent) (i : Instr),
      s.host = .command w :: later → s.flight = none → decode w = .ok i →
      step s = exec i { s with host := later }) ∧
  (∀ (s : State) (nbits w : Nat) (i : Instr), decodeTableWord nbits w = some i →
      step (s.withFetchWord nbits w) = exec i { s with flight := none })

/-- R53: a word is accepted only while no command is in flight, sampled once, and answered by exactly one response, after
which the next word can be accepted. -/
def Obligations.OneResponsePerAcceptedWord : Prop :=
  ∀ (s : State), ¬ ResetNext s → (s.flight ≠ none ∨ s.host ≠ []) →
    ∃ t, step s = .next t ∧
      (s.flight ≠ none → t.host = s.host) ∧
      (s.flight = none → ∃ w later, s.host = .command w :: later ∧ t.host = later) ∧
      ((t.flight = none ∧ ∃ r, t.responses = s.responses ++ [r]) ∨
       (t.flight ≠ none ∧ t.responses = s.responses))

/-- R6: with nothing presented and nothing in flight the block does nothing. (That an idle block takes a step at all is
the model's choice, log entry 5.) -/
def Obligations.IdleBlockDoesNothing : Prop :=
  ∀ s : State, s.host = [] → s.flight = none → step s = .next s

/-- R33: a phase succeeds when `ok` = 1 and, for RD(n), the byte list has exactly `n` entries; every other answer is a
failure. -/
def Obligations.PhaseSuccessIsOkAndByteCount : Prop :=
  ∀ a : Answer,
    (∀ reg, a.succeeds (.sel reg) = true ↔ a.ok = true) ∧
    (∀ n, a.succeeds (.rd n) = true ↔ a.ok = true ∧ a.bytes.length = n) ∧
    (∀ reg val, a.succeeds (.wr reg val) = true ↔ a.ok = true)

/-- R34, R136, R137: of an accepted command, the first phase that fails ends it: with `ST_BUS_PARTIAL` for START's second
write and `ST_BUS` otherwise; the phases after it are not issued, none is repeated, and no register changes. -/
def Obligations.FirstFailedPhaseEndsCommand : Prop :=
  ∀ (i : Instr) (s : State) (done rest : List Request) (r : Request) (as : List Answer) (a : Answer)
    (later : List BusEvent),
    Accepted i s → ruledRequests i = done ++ r :: rest → AllSucceed done as → a.succeeds r = false →
    s.bus = answersThen (as ++ [a]) later →
    exec i s = .next (s.ended later (answeredPhases (done ++ [r]) (as ++ [a]))
      ⟨match r with
        | .wr reg _ => if reg = 0xF4 then .busPartial else .bus
        | .sel _ => .bus
        | .rd _ => .bus, false, 0⟩)

/-- R158: a transport that answers each phase carries any command, from any state, to its response in one step with at
most 6 phases. -/
def Obligations.AnsweredCommandCompletes : Prop :=
  ∀ (i : Instr) (s : State) (as : List Answer) (later : List BusEvent),
    as.length = 6 → s.bus = answersThen as later →
    ∃ t r phases, exec i s = .next t ∧ t.flight = none ∧ t.responses = s.responses ++ [r] ∧
      t.trace = s.trace ++ phases ∧ phases.length ≤ 6 ∧ ∀ p ∈ phases, ∃ a ∈ as, p.answer = some a

/-- R23, R53 (derived): a command interrupted by the transport's silence and resumed when the answers come ends in the
same state as the same command answered without interruption. (That silence leaves a command in flight at the end of a
step is the model's choice, log entries 1 and 2.) -/
def Obligations.SilenceOnlyDelaysACommand : Prop :=
  ∀ (i : Instr) (s t : State) (early late : List Answer) (later : List BusEvent),
    ¬ ResetNext s → s.bus = answersThen early (.silent :: answersThen late later) →
    exec i s = .next t → t.flight ≠ none →
    step t = exec i { s with bus := answersThen (early ++ late) later }

/-- R50: the bus trace and the responses only grow, whatever the step. (That State keeps both is the model's choice, log
entry 4.) -/
def Obligations.TraceAndResponsesOnlyGrow : Prop :=
  ∀ s t : State, step s = .next t →
    (∃ phases, t.trace = s.trace ++ phases) ∧ (∃ rs, t.responses = s.responses ++ rs)

/-- R26: the status outputs show `SEQ`, `CAL_VALID` and `IDENTITY`, and change only at the moment a command's response is
produced or at reset. -/
def Obligations.StatusOutputsChangeOnlyAtResponse : Prop :=
  (∀ s : State, s.statusOutputs = (s.seq.code, s.calValid, s.identity)) ∧
  ∀ s t : State, step s = .next t → t.statusOutputs ≠ s.statusOutputs →
    ResetNext s ∨ (t.flight = none ∧ ∃ r, t.responses = s.responses ++ [r])

/-! ### Reset -/

/-- R27: after reset `SEQ` = Uninitialized, `CAL_VALID` = 0, all 18 constants and `IDENTITY` = 0, the staging area is empty
and nothing is in flight; the same registers stand in the machine's initial state. -/
def Obligations.ResetGivesResetValues : Prop :=
  (∀ (s : State) (later : List HostEvent), s.host = .reset :: later →
    ∃ t, step s = .next t ∧ t.seq = .uninitialized ∧ t.calValid = false ∧
      t.cal = ⟨0, 0, 0, 0, 0, 0, 0, 0, 0, 0, 0, 0, 0, 0, 0, 0, 0, 0⟩ ∧ t.identity = 0 ∧ t.flight = none) ∧
  State.reset.seq = .uninitialized ∧ State.reset.calValid = false ∧
  State.reset.cal = ⟨0, 0, 0, 0, 0, 0, 0, 0, 0, 0, 0, 0, 0, 0, 0, 0, 0, 0⟩ ∧ State.reset.identity = 0 ∧
  State.reset.flight = none

/-- R148, R149: reset abandons the command in flight: no response, no commit, no further phase; the request already handed
to the transport is left unanswered (that it is recorded so is the model's choice, log entry 6), and reset
itself issues no phase. -/
def Obligations.ResetAbandonsTheCommandInFlight : Prop :=
  ∀ (s : State) (later : List HostEvent), s.host = .reset :: later →
    (s.flight = none → step s = .next { s with
        host := later, cal := Calibration.zero, calValid := false, identity := 0, seq := .uninitialized }) ∧
    (∀ f r, s.flight = some f → (ruledRequests f.cmd)[f.phase]? = some r → step s = .next { s with
        host := later, cal := Calibration.zero, calValid := false, identity := 0, seq := .uninitialized,
        flight := none, trace := s.trace ++ [⟨r, none⟩] })

/-! ### Statuses -/

/-- R134, steps 2 to 4, with the decoded command: reserved operand code, then calibration, then sequencer state; a
refused command issues no bus phase and changes no register. Step 5 is FirstFailedPhaseEndsCommand, step 1 is
IllegalWordsRefusedWithoutEffect. -/
def Obligations.ChecksInOrder : Prop :=
  ∀ (i : Instr) (s : State),
    (i.WellFormed = false → exec i s = .next (s.refusedWith .operand)) ∧
    (i.WellFormed = true → needsCal i = true → s.calValid = false → exec i s = .next (s.refusedWith .noCal)) ∧
    (i.WellFormed = true → (needsCal i = true → s.calValid = true) → admitted i s.seq = false →
      exec i s = .next (s.refusedWith .badState))

/-- R138: CONFIGURE, START, COMP_T, COMP_P and COMP_H with `CAL_VALID` = 0 are refused with `ST_NOCAL` (where no operand
code is reserved). -/
def Obligations.UncalibratedCommandsRefused : Prop :=
  ∀ s : State, s.calValid = false →
    (∀ period filter, filter.toNat ≤ 4 → exec (.configure period filter) s = .next (s.refusedWith .noCal)) ∧
    (∀ osrsH osrsT osrsP mode, osrsH.toNat ≤ 5 → osrsT.toNat ≤ 5 → osrsP.toNat ≤ 5 → mode ≠ 2 →
      exec (.start osrsH osrsT osrsP mode) s = .next (s.refusedWith .noCal)) ∧
    (∀ adcT, exec (.compT adcT) s = .next (s.refusedWith .noCal)) ∧
    (∀ adcP tFine, exec (.compP adcP tFine) s = .next (s.refusedWith .noCal)) ∧
    (∀ adcH tFine, exec (.compH adcH tFine) s = .next (s.refusedWith .noCal))

/-- R139: CONFIGURE outside Uninitialized and START outside Configured and Idle are refused with `ST_STATE` (where the
earlier tests pass). -/
def Obligations.WrongStateRefused : Prop :=
  ∀ s : State, s.calValid = true →
    (∀ period filter, filter.toNat ≤ 4 → s.seq ≠ .uninitialized →
      exec (.configure period filter) s = .next (s.refusedWith .badState)) ∧
    (∀ osrsH osrsT osrsP mode, osrsH.toNat ≤ 5 → osrsT.toNat ≤ 5 → osrsP.toNat ≤ 5 → mode ≠ 2 →
      s.seq ≠ .configured → s.seq ≠ .idle →
      exec (.start osrsH osrsT osrsP mode) s = .next (s.refusedWith .badState))

/-- R132: a step that ends a command with a status other than `ST_OK` leaves every register as it was and answers `res` = 0
and `ovf` = 0; so does, for the registers, a step that leaves the command in flight. -/
def Obligations.NonOkCompletionIsPrecise : Prop :=
  ∀ s t : State, ¬ ResetNext s → step s = .next t →
    (∀ r, t.responses = s.responses ++ [r] → r.status ≠ .ok → SameRegisters s t ∧ r.res = 0 ∧ r.ovf = false) ∧
    (t.flight ≠ none → SameRegisters s t)

/-- R133 (derived there): which command can complete with which status. -/
def Obligations.StatusesOfEachCommand : Prop :=
  ∀ (i : Instr) (s t : State) (r : Response), exec i s = .next t → t.responses = s.responses ++ [r] →
    match i with
    | .probe => r.status = .ok ∨ r.status = .bus
    | .loadCal => r.status = .ok ∨ r.status = .bus
    | .configure _ _ =>
      r.status = .ok ∨ r.status = .bus ∨ r.status = .noCal ∨ r.status = .badState ∨ r.status = .operand
    | .start _ _ _ _ =>
      r.status = .ok ∨ r.status = .bus ∨ r.status = .busPartial ∨ r.status = .noCal ∨ r.status = .badState
        ∨ r.status = .operand
    | .isBusy => r.status = .ok ∨ r.status = .bus
    | .readSample => r.status = .ok ∨ r.status = .bus
    | .compT _ => r.status = .ok ∨ r.status = .noCal
    | .compP _ _ => r.status = .ok ∨ r.status = .noCal
    | .compH _ _ => r.status = .ok ∨ r.status = .noCal

/-- R57, R59: with a status other than `ST_OK`, `res` and `ovf` are 0; `ovf` is 0 for every command but the three
compensation commands; and the payload bits R59 does not name are 0. -/
def Obligations.ResponsePayloadLayout : Prop :=
  ∀ (i : Instr) (s t : State) (r : Response), exec i s = .next t → t.responses = s.responses ++ [r] →
    (r.status ≠ .ok → r.res = 0 ∧ r.ovf = false) ∧
    match i with
    | .probe => r.ovf = false ∧ r.res.toNat ≤ 1
    | .loadCal => r.ovf = false ∧ (r.status = .ok → r.res = t.identity.zeroExtend 64)
    | .configure _ _ => r.ovf = false ∧ r.res = 0
    | .start _ _ _ _ => r.ovf = false ∧ r.res = 0
    | .isBusy => r.ovf = false ∧ r.res.toNat ≤ 1
    | .readSample => r.ovf = false ∧ r.res.extractLsb' 56 8 = 0#8
    | .compT _ => True
    | .compP _ _ => r.res.extractLsb' 32 32 = 0#32
    | .compH _ _ => r.res.extractLsb' 32 32 = 0#32

/-! ### Sequencer -/

/-- R86: PROBE: its word, and in every state: two phases, `present` exactly when the identifier is 0x60, `ST_BUS` when a phase fails, and
no register changes. -/
def Obligations.ProbeAnswersPresence : Prop :=
  decode 0x1000000000000000#64 = .ok .probe ∧
  ∀ (s : State) (x : List Byte) (later : List BusEvent),
    (∀ id : Byte, s.bus = .answer ⟨true, x⟩ :: .answer ⟨true, [id]⟩ :: later →
      exec .probe s = .next (s.ended later [⟨.sel 0xD0, some ⟨true, x⟩⟩, ⟨.rd 1, some ⟨true, [id]⟩⟩]
        ⟨.ok, false, if id = 0x60 then 1 else 0⟩)) ∧
    (∀ a : Answer, a.ok = false → s.bus = .answer a :: later →
      exec .probe s = .next (s.ended later [⟨.sel 0xD0, some a⟩] ⟨.bus, false, 0⟩)) ∧
    (∀ a : Answer, a.ok = false ∨ a.bytes.length ≠ 1 → s.bus = .answer ⟨true, x⟩ :: .answer a :: later →
      exec .probe s = .next (s.ended later [⟨.sel 0xD0, some ⟨true, x⟩⟩, ⟨.rd 1, some a⟩] ⟨.bus, false, 0⟩))

/-- R87: CONFIGURE: its words, its checks in order, the one write of 0xF5, `SEQ` = Configured on success, nothing on failure. -/
def Obligations.ConfigureWritesFilterAndPeriod : Prop :=
  ∀ (s : State) (period filter : BitVec 3),
    decode (0x3#4 ++ 0#52 ++ period ++ filter ++ 0#2) = .ok (.configure period filter) ∧
    (4 < filter.toNat → exec (.configure period filter) s = .next (s.refusedWith .operand)) ∧
    (filter.toNat ≤ 4 →
      (s.calValid = false → exec (.configure period filter) s = .next (s.refusedWith .noCal)) ∧
      (s.calValid = true → s.seq ≠ .uninitialized →
        exec (.configure period filter) s = .next (s.refusedWith .badState)) ∧
      (s.calValid = true → s.seq = .uninitialized → ∀ (a : Answer) (later : List BusEvent),
        s.bus = .answer a :: later →
        exec (.configure period filter) s =
          if a.ok then
            .next { s.ended later [⟨.wr 0xF5 (period ++ filter ++ 0#2), some a⟩] ⟨.ok, false, 0⟩ with
              seq := .configured }
          else
            .next (s.ended later [⟨.wr 0xF5 (period ++ filter ++ 0#2), some a⟩] ⟨.bus, false, 0⟩)))

/-- R88, R89: START: its words, its checks in order, the write of 0xF2 before the write of 0xF4, `SEQ` = Measuring on success whatever
the mode, `ST_BUS` when the first write fails, `ST_BUS_PARTIAL` when the second does, and `SEQ` unchanged then. -/
def Obligations.StartWritesHumidityFirst : Prop :=
  ∀ (s : State) (osrsH osrsT osrsP : BitVec 3) (mode : BitVec 2),
    let i : Instr := .start osrsH osrsT osrsP mode
    let codesOk : Prop := mode ≠ 2 ∧ osrsT.toNat ≤ 5 ∧ osrsP.toNat ≤ 5 ∧ osrsH.toNat ≤ 5
    let first : Request := .wr 0xF2 (0#5 ++ osrsH)
    let second : Request := .wr 0xF4 (osrsT ++ osrsP ++ mode)
    decode (0x4#4 ++ 0#49 ++ osrsH ++ osrsT ++ osrsP ++ mode) = .ok i ∧
    (¬ codesOk → exec i s = .next (s.refusedWith .operand)) ∧
    (codesOk → s.calValid = false → exec i s = .next (s.refusedWith .noCal)) ∧
    (codesOk → s.calValid = true → s.seq ≠ .configured → s.seq ≠ .idle →
      exec i s = .next (s.refusedWith .badState)) ∧
    (codesOk → s.calValid = true → s.seq = .configured ∨ s.seq = .idle →
      (∀ (a : Answer) (later : List BusEvent), a.ok = false → s.bus = .answer a :: later →
        exec i s = .next (s.ended later [⟨first, some a⟩] ⟨.bus, false, 0⟩)) ∧
      (∀ (a b : Answer) (later : List BusEvent), a.ok = true → s.bus = .answer a :: .answer b :: later →
        exec i s =
          if b.ok then
            .next { s.ended later [⟨first, some a⟩, ⟨second, some b⟩] ⟨.ok, false, 0⟩ with seq := .measuring }
          else .next (s.ended later [⟨first, some a⟩, ⟨second, some b⟩] ⟨.busPartial, false, 0⟩)))

/-- R90, R91: IS_BUSY: its word, and in every state: `busy` exactly when status bit 3 or bit 0 is set; on success Measuring with not busy
becomes Idle, Idle with busy becomes Measuring, and `SEQ` is otherwise unchanged; a failed phase changes no register. -/
def Obligations.IsBusyReportsAndMovesSeq : Prop :=
  decode 0x5000000000000000#64 = .ok .isBusy ∧
  ∀ (s : State) (x : List Byte) (later : List BusEvent),
    (∀ st : Byte, s.bus = .answer ⟨true, x⟩ :: .answer ⟨true, [st]⟩ :: later →
      let busy := st.getLsbD 3 || st.getLsbD 0
      exec .isBusy s = .next
        { s.ended later [⟨.sel 0xF3, some ⟨true, x⟩⟩, ⟨.rd 1, some ⟨true, [st]⟩⟩]
            ⟨.ok, false, if busy then 1 else 0⟩ with
          seq :=
            if s.seq = .measuring ∧ busy = false then .idle
            else if s.seq = .idle ∧ busy = true then .measuring
            else s.seq }) ∧
    (∀ a : Answer, a.ok = false → s.bus = .answer a :: later →
      exec .isBusy s = .next (s.ended later [⟨.sel 0xF3, some a⟩] ⟨.bus, false, 0⟩)) ∧
    (∀ a : Answer, a.ok = false ∨ a.bytes.length ≠ 1 → s.bus = .answer ⟨true, x⟩ :: .answer a :: later →
      exec .isBusy s = .next (s.ended later [⟨.sel 0xF3, some ⟨true, x⟩⟩, ⟨.rd 1, some a⟩] ⟨.bus, false, 0⟩))

/-- R92 to R94 (the 16-bit assembly of R94 is derived there): READ_SAMPLE, in every state: temperature, pressure, humidity read in this order and assembled big-endian
(20 bits: the low nibble of the third byte is discarded); no register changes; no partial sample on a failure. -/
def Obligations.ReadSampleAssemblesBigEndian : Prop :=
  ∀ s : State,
    (∀ (x1 x2 x3 : List Byte) (t0 t1 t2 p0 p1 p2 h0 h1 : Byte) (later : List BusEvent),
      s.bus = .answer ⟨true, x1⟩ :: .answer ⟨true, [t0, t1, t2]⟩ :: .answer ⟨true, x2⟩
        :: .answer ⟨true, [p0, p1, p2]⟩ :: .answer ⟨true, x3⟩ :: .answer ⟨true, [h0, h1]⟩ :: later →
      exec .readSample s = .next (s.ended later
        [⟨.sel 0xFA, some ⟨true, x1⟩⟩, ⟨.rd 3, some ⟨true, [t0, t1, t2]⟩⟩, ⟨.sel 0xF7, some ⟨true, x2⟩⟩,
          ⟨.rd 3, some ⟨true, [p0, p1, p2]⟩⟩, ⟨.sel 0xFD, some ⟨true, x3⟩⟩, ⟨.rd 2, some ⟨true, [h0, h1]⟩⟩]
        ⟨.ok, false, 0#8 ++ (h0 ++ h1) ++ (p0 ++ p1 ++ p2.extractLsb' 4 4) ++ (t0 ++ t1 ++ t2.extractLsb' 4 4)⟩)) ∧
    (∀ (t : State) (r : Response), exec .readSample s = .next t → t.responses = s.responses ++ [r] →
      SameRegisters s t ∧ (r.status = .ok ∨ r = ⟨.bus, false, 0⟩))

/-- R85: the moves of `SEQ`, for every command that completes with `ST_OK`; with any other status `SEQ` is unchanged;
CONFIGURE and START complete with `ST_OK` only from the states their column names, and in a refused cell with `ST_STATE`
(where the earlier tests pass). -/
def Obligations.SeqMovesAsTabled : Prop :=
  (∀ (i : Instr) (s : State), i.WellFormed = true → s.calValid = true →
    ((∃ period filter, i = .configure period filter) ∧ s.seq ≠ .uninitialized) ∨
      ((∃ osrsH osrsT osrsP mode, i = .start osrsH osrsT osrsP mode) ∧ (s.seq = .uninitialized ∨ s.seq = .measuring)) →
    exec i s = .next (s.refusedWith .badState)) ∧
  ∀ (i : Instr) (s t : State) (r : Response), exec i s = .next t → t.responses = s.responses ++ [r] →
    (r.status ≠ .ok → t.seq = s.seq) ∧
    (r.status = .ok →
      match i with
      | .configure _ _ => s.seq = .uninitialized ∧ t.seq = .configured
      | .start _ _ _ _ => (s.seq = .configured ∨ s.seq = .idle) ∧ t.seq = .measuring
      | .isBusy =>
        t.seq =
          match s.seq with
          | .uninitialized => .uninitialized
          | .configured => .configured
          | .idle => if r.res = 1 then .measuring else .idle
          | .measuring => if r.res = 1 then .measuring else .idle
      | .probe => t.seq = s.seq
      | .loadCal => t.seq = s.seq
      | .readSample => t.seq = s.seq
      | .compT _ => t.seq = s.seq
      | .compP _ _ => t.seq = s.seq
      | .compH _ _ => t.seq = s.seq)

/-- R85 over whole steps (derived): without reset, `SEQ` moves only from Uninitialized to Configured, from Configured or
Idle to Measuring, and between Measuring and Idle; reset is the only way back to Uninitialized. The premise rules
out a command in flight that the block never accepted. -/
def Obligations.SeqEdgesOfAStep : Prop :=
  ∀ s t : State, FlightOk s → ¬ ResetNext s → step s = .next t →
    t.seq = s.seq ∨ (s.seq = .uninitialized ∧ t.seq = .configured) ∨
    ((s.seq = .configured ∨ s.seq = .idle) ∧ t.seq = .measuring) ∨ (s.seq = .measuring ∧ t.seq = .idle)

/-! ### Calibration -/

/-- R72 to R82: a LOAD_CAL whose six phases succeed: the trace, the 18 constants, `IDENTITY` as FNV-1a of the 33-byte
image, `CAL_VALID` = 1 and the response, all in one step; `SEQ` is untouched (R71). (That T1 to T3 and P1 to P9 are the
twelve fields in this order is marked general knowledge in R15, log entry 10.) -/
def Obligations.LoadCalPublishesConstantsAndIdentity : Prop :=
  ∀ (s : State) (x1 x2 x3 tp : List Byte) (h1 b0 b1 b2 b3 b4 b5 b6 : Byte) (later : List BusEvent),
    tp.length = 24 →
    s.bus = .answer ⟨true, x1⟩ :: .answer ⟨true, tp⟩ :: .answer ⟨true, x2⟩ :: .answer ⟨true, [h1]⟩
      :: .answer ⟨true, x3⟩ :: .answer ⟨true, [b0, b1, b2, b3, b4, b5, b6]⟩ :: later →
    let raw16 (k : Nat) : BitVec 16 := tp.getD (2 * k + 1) 0 ++ tp.getD (2 * k) 0
    let image : List Byte := tp ++
      [h1, b0, b1, b2, b3.extractLsb' 0 4 ++ b4.extractLsb' 0 4, 0#4 ++ b3.extractLsb' 4 4,
        b5.extractLsb' 0 4 ++ b4.extractLsb' 4 4, 0#4 ++ b5.extractLsb' 4 4, b6]
    let identity : BitVec 32 :=
      image.foldl (fun hash byte => (hash ^^^ byte.zeroExtend 32) * 0x01000193#32) 0x811c9dc5#32
    exec .loadCal s = .next
      { s.ended later
          [⟨.sel 0x88, some ⟨true, x1⟩⟩, ⟨.rd 24, some ⟨true, tp⟩⟩, ⟨.sel 0xA1, some ⟨true, x2⟩⟩,
            ⟨.rd 1, some ⟨true, [h1]⟩⟩, ⟨.sel 0xE1, some ⟨true, x3⟩⟩,
            ⟨.rd 7, some ⟨true, [b0, b1, b2, b3, b4, b5, b6]⟩⟩]
          ⟨.ok, false, 0#32 ++ identity⟩ with
        cal :=
          { T1 := raw16 0, T2 := raw16 1, T3 := raw16 2
            P1 := raw16 3, P2 := raw16 4, P3 := raw16 5, P4 := raw16 6, P5 := raw16 7
            P6 := raw16 8, P7 := raw16 9, P8 := raw16 10, P9 := raw16 11
            H1 := h1, H2 := b1 ++ b0, H3 := b2
            H4 := 0#4 ++ b3 ++ b4.extractLsb' 0 4
            H5 := 0#4 ++ b5 ++ b4.extractLsb' 4 4
            H6 := b6 }
        calValid := true
        identity := identity }

/-- R83: when any read of LOAD_CAL fails the command ends with `ST_BUS`, later reads are not issued, and `cal`, `IDENTITY`
and `CAL_VALID` keep the values they had. -/
def Obligations.FailedLoadCalPublishesNothing : Prop :=
  ∀ (s : State) (done rest : List Request) (r : Request) (as : List Answer) (a : Answer) (later : List BusEvent),
    ([.sel 0x88, .rd 24, .sel 0xA1, .rd 1, .sel 0xE1, .rd 7] : List Request) = done ++ r :: rest →
    AllSucceed done as → a.succeeds r = false → s.bus = answersThen (as ++ [a]) later →
    exec .loadCal s = .next (s.ended later (answeredPhases (done ++ [r]) (as ++ [a])) ⟨.bus, false, 0⟩)

/-- R14, R17, R18, R28: the 18 constants, `CAL_VALID` and `IDENTITY` are written together, only by a step that completes a
LOAD_CAL with `ST_OK`, and otherwise only by reset. -/
def Obligations.OnlyLoadCalWritesCalibration : Prop :=
  ∀ s t : State, ¬ ResetNext s → step s = .next t →
    (t.cal = s.cal ∧ t.calValid = s.calValid ∧ t.identity = s.identity) ∨
    (t.calValid = true ∧ t.flight = none ∧
      t.responses = s.responses ++ [⟨.ok, false, t.identity.zeroExtend 64⟩] ∧
      ((∃ f, s.flight = some f ∧ f.cmd = .loadCal) ∨
        (s.flight = none ∧ ∃ later, s.host = .command 0x2000000000000000#64 :: later)))

/-- R84 a (derived there): loading twice from identical register contents yields the same constants, the same identity and
the same response, whatever the states the two loads start from. -/
def Obligations.LoadCalIsIdempotent : Prop :=
  ∀ (s s' t t' : State) (as : List Answer) (later later' : List BusEvent),
    AllSucceed [.sel 0x88, .rd 24, .sel 0xA1, .rd 1, .sel 0xE1, .rd 7] as →
    s.bus = answersThen as later → s'.bus = answersThen as later' →
    exec .loadCal s = .next t → exec .loadCal s' = .next t' →
    t'.cal = t.cal ∧ t'.identity = t.identity ∧ t'.calValid = t.calValid ∧
      t'.responses.getLast? = t.responses.getLast?

/-- R84 b (derived there): two images that differ in exactly one byte have different identities. -/
def Obligations.IdentitySeesEverySingleByte : Prop :=
  ∀ (before after : List Byte) (x y : Byte), x ≠ y →
    fnv1a (before ++ x :: after) ≠ fnv1a (before ++ y :: after)

/-- R84 b (derived there): two different 32-byte inputs give two different images. -/
def Obligations.ImageDeterminesTheBytesRead : Prop :=
  ∀ x y : List Byte, x.length = 32 → y.length = 32 → hashImage x = hashImage y → x = y

/-! ### Compensation -/

/-- R112, R113: COMP_T completes in every `SEQ` state with calibration loaded; its result and overflow bit are those of the
32-bit two's complement datapath, and nothing but the response list changes. Rests on the formula of R113, which the
spec marks as general knowledge (log entry 10); with all three constants zero the overflow bit is the model's choice (log
entry 18). -/
def Obligations.CompTEqualsItsDatapath : Prop :=
  ∀ (s : State) (adcT : BitVec 20), s.calValid = true →
    exec (.compT adcT) s = .next (s.ended s.bus []
      ⟨.ok, (temperatureWires s.cal adcT).ovf,
        (fineTemperatureWires s.cal adcT).out ++ (temperatureWires s.cal adcT).out⟩)

/-- R117 to R121: COMP_P completes with calibration loaded; its result is the low 32 bits of the 64-bit datapath, the
overflow bit is the datapath's, and nothing but the response list changes. Rests on the formula of R118 and R120, which
the spec marks as general knowledge (log entry 10). -/
def Obligations.CompPEqualsItsDatapath : Prop :=
  ∀ (s : State) (adcP : BitVec 20) (tFine : BitVec 32), s.calValid = true →
    exec (.compP adcP tFine) s = .next (s.ended s.bus []
      ⟨.ok, (pressureWires p1Unsigned s.cal adcP tFine).ovf,
        0#32 ++ (pressureWires p1Unsigned s.cal adcP tFine).out.extractLsb' 0 32⟩)

/-- R124 to R126: COMP_H completes with calibration loaded; its result is the clamped output of the 32-bit datapath, the
overflow bit is the datapath's, and nothing but the response list changes. Rests on the formula of R125, which the spec
marks as general knowledge (log entry 10). -/
def Obligations.CompHEqualsItsDatapath : Prop :=
  ∀ (s : State) (adcH : BitVec 16) (tFine : BitVec 32), s.calValid = true →
    exec (.compH adcH tFine) s = .next (s.ended s.bus []
      ⟨.ok, (humidityWires s.cal adcH tFine).ovf, 0#32 ++ clampWires (humidityWires s.cal adcH tFine).out⟩)

/-- R110: `ovf` = 0 certifies that COMP_T's results equal their exact mathematical values. -/
def Obligations.CompTExactWithoutOverflow : Prop :=
  ∀ (c : Calibration) (adcT : BitVec 20), (compensateT 32 c adcT).temp.ovf = false →
    (compensateT 32 c adcT).tFine.val = (exactT c adcT).1 ∧ (compensateT 32 c adcT).temp.val = (exactT c adcT).2

/-- R110: `ovf` = 0 certifies that COMP_P's result equals its exact mathematical value, under either reading of P1. -/
def Obligations.CompPExactWithoutOverflow : Prop :=
  ∀ (p1u : Bool) (c : Calibration) (adcP : BitVec 20) (tFine : BitVec 32),
    (compensateP 64 p1u c adcP tFine).ovf = false →
    (compensateP 64 p1u c adcP tFine).val = exactP p1u c adcP tFine

/-- R110: `ovf` = 0 certifies that COMP_H's result equals its exact mathematical value. -/
def Obligations.CompHExactWithoutOverflow : Prop :=
  ∀ (c : Calibration) (adcH : BitVec 16) (tFine : BitVec 32), (compensateH 32 c adcH tFine).ovf = false →
    (compensateH 32 c adcH tFine).val = exactH c adcH tFine

/-- R110: where `ovf` = 0, any implementation with intermediates at least this wide computes the same results, and reports
no overflow either. -/
def Obligations.WiderDatapathsAgreeWithoutOverflow : Prop :=
  ∀ (V : Nat) (c : Calibration) (tFine : BitVec 32),
    (∀ adcT : BitVec 20, 32 ≤ V → (compensateT 32 c adcT).temp.ovf = false →
      (compensateT V c adcT).temp = (compensateT 32 c adcT).temp ∧
      (compensateT V c adcT).tFine = (compensateT 32 c adcT).tFine) ∧
    (∀ (p1u : Bool) (adcP : BitVec 20), 64 ≤ V → (compensateP 64 p1u c adcP tFine).ovf = false →
      compensateP V p1u c adcP tFine = compensateP 64 p1u c adcP tFine) ∧
    (∀ adcH : BitVec 16, 32 ≤ V → (compensateH 32 c adcH tFine).ovf = false →
      compensateH V c adcH tFine = compensateH 32 c adcH tFine)

/-- R113, R130: in every `ST_OK` response of COMP_T, the temperature in `res[31:0]` is `(t_fine * 5 + 128) >> 8` of the fine
temperature in `res[63:32]`, over the integers, whatever overflowed before. -/
def Obligations.TemperatureIsScaledFineTemperature : Prop :=
  ∀ (s t : State) (adcT : BitVec 20) (r : Response), exec (.compT adcT) s = .next t →
    t.responses = s.responses ++ [r] → r.status = .ok →
    (r.res.extractLsb' 0 32).toInt = ((r.res.extractLsb' 32 32).toInt * 5 + 128) / 256

/-- R114 (derived there): the ranges and overflow sites of COMP_T. -/
def Obligations.TemperatureRangesAndOverflowSites : Prop :=
  ∀ (c : Calibration) (adcT : BitVec 20),
    let t := compensateT 32 c adcT
    (-131070 ≤ t.x1.val ∧ t.x1.val ≤ 131071 ∧ t.x1.ovf = false) ∧
    (-65535 ≤ t.x2.val ∧ t.x2.val ≤ 65535 ∧ t.x2.ovf = false) ∧
    (t.sq.ovf = true ↔ 46341 ≤ |t.x2.val|) ∧
    (t.m1.ovf = true → 65536 ≤ |t.x1.val|) ∧
    (-1179648 ≤ t.tFine.val ∧ t.tFine.val ≤ 1179646) ∧
    (t.temp.ovf = true ↔ t.m1.ovf = true ∨ t.m2.ovf = true) ∧
    (-23040 ≤ t.temp.val ∧ t.temp.val ≤ 23040)

/-- R119: when the wrapped divisor `w2` is 0, COMP_P answers `P` = 0 with `ST_OK`, never an error, `ovf` being that of the
operations done before; `P1` = 0 makes it so for every raw count and fine temperature. -/
def Obligations.ZeroDivisorAnswersZero : Prop :=
  ∀ (s : State) (adcP : BitVec 20) (tFine : BitVec 32), s.calValid = true →
    let t := pressureTerms 64 p1Unsigned s.cal tFine
    (t.w2.val = 0 → exec (.compP adcP tFine) s = .next (s.ended s.bus [] ⟨.ok, t.v2.ovf || t.w2.ovf, 0⟩)) ∧
    (s.cal.P1 = 0 → t.w2.val = 0)

/-- R126: COMP_H clamps the signed `y` to [0, 419430400] before the final `>>12`: saturated, not wrapped or rejected; the
output is `z >> 12`, in 0 .. 102400, with `ST_OK`. -/
def Obligations.HumiditySaturates : Prop :=
  ∀ (s : State) (adcH : BitVec 16) (tFine : BitVec 32), s.calValid = true →
    let y := humidityRaw 32 s.cal adcH tFine
    ∃ z h : Nat,
      (y.val < 0 → z = 0) ∧ (419430400 < y.val → z = 419430400) ∧
      (0 ≤ y.val → y.val ≤ 419430400 → (z : Int) = y.val) ∧
      h = z / 4096 ∧ h ≤ 102400 ∧
      exec (.compH adcH tFine) s = .next (s.ended s.bus [] ⟨.ok, y.ovf, BitVec.ofNat 64 h⟩)

/-- R129: the response of a compensation command is a function of the command and of `cal` alone; the command writes no
state and issues no bus phase. -/
def Obligations.CompensationDependsOnCalOnly : Prop :=
  ∀ (i : Instr) (s s' : State), ((∃ a, i = .compT a) ∨ (∃ a f, i = .compP a f) ∨ (∃ a f, i = .compH a f)) →
    s.calValid = true → s'.calValid = true → s'.cal = s.cal →
    ∃ r, r.status = .ok ∧ exec i s = .next (s.ended s.bus [] r) ∧ exec i s' = .next (s'.ended s'.bus [] r)

/-- R125 (last sentence): `H4 << 20` overflows 32 bits exactly when `H4` is at least 2048, and the wrapped value is then what
a sign extension of `H4` from bit 11 gives. -/
def Obligations.HumidityConstantShiftWraps : Prop :=
  ∀ h4 : BitVec 16, h4.toNat ≤ 4095 →
    (((signedFx h4).shl 32 20).ovf = true ↔ 2048 ≤ h4.toNat) ∧
    ((signedFx h4).shl 32 20).val = (h4.extractLsb' 0 12).toInt * 2 ^ 20

/-- R15, R111 (90_conflicts.md C2): the two readings of P1 differ only for bytes above 0x7FFF. -/
def Obligations.PressureReadingsDifferOnlyAbove32767 : Prop :=
  ∀ (W : Nat) (c : Calibration) (adcP : BitVec 20) (tFine : BitVec 32), c.P1.toNat ≤ 32767 →
    compensateP W true c adcP tFine = compensateP W false c adcP tFine

/-! ### Arithmetic -/

/-- R9: `wrap_N(x)` is the unique integer in the signed range congruent to `x` modulo 2^N. -/
def Obligations.WrapIsTheUniqueSignedResidue : Prop :=
  ∀ (N : Nat) (x : Int), 0 < N →
    (-2 ^ (N - 1) ≤ wrap N x ∧ wrap N x < 2 ^ (N - 1) ∧ wrap N x % 2 ^ N = x % 2 ^ N) ∧
    ∀ y : Int, -2 ^ (N - 1) ≤ y → y < 2 ^ (N - 1) → y % 2 ^ N = x % 2 ^ N → y = wrap N x

/-- R106, R107: addition, subtraction, multiplication and left shift wrap the exact result, and set `ovf` exactly when it
lies outside the signed range of the width. -/
def Obligations.OverflowExactlyOutsideTheRange : Prop :=
  ∀ (W n : Nat) (x y : Int),
    let out (e : Int) : Prop := e < -2 ^ (W - 1) ∨ 2 ^ (W - 1) ≤ e
    ((Fx.lit x).add W (Fx.lit y)).val = wrap W (x + y) ∧
    (((Fx.lit x).add W (Fx.lit y)).ovf = true ↔ out (x + y)) ∧
    ((Fx.lit x).sub W (Fx.lit y)).val = wrap W (x - y) ∧
    (((Fx.lit x).sub W (Fx.lit y)).ovf = true ↔ out (x - y)) ∧
    ((Fx.lit x).mul W (Fx.lit y)).val = wrap W (x * y) ∧
    (((Fx.lit x).mul W (Fx.lit y)).ovf = true ↔ out (x * y)) ∧
    ((Fx.lit x).shl W n).val = wrap W (x * 2 ^ n) ∧
    (((Fx.lit x).shl W n).ovf = true ↔ out (x * 2 ^ n))

/-- R108, R109: the right shift is `floor(a / 2^n)` and never overflows; the quotient of two 64-bit numbers is truncated
toward zero, and overflows only for -2^63 divided by -1, which gives -2^63. -/
def Obligations.ShiftsFloorAndDivisionTruncates : Prop :=
  (∀ (a : Fx) (n : Nat), (a.sar n).val * 2 ^ n ≤ a.val ∧ a.val < ((a.sar n).val + 1) * 2 ^ n ∧
      (a.sar n).ovf = a.ovf) ∧
  (∀ a b : Int, fits 64 a = true → fits 64 b = true → b ≠ 0 →
      ¬ (a = -2 ^ 63 ∧ b = -1) →
      ((Fx.lit a).quot 64 (Fx.lit b)).val = a.sign * b.sign * (|a| / |b|) ∧
      ((Fx.lit a).quot 64 (Fx.lit b)).ovf = false) ∧
  (Fx.lit (-2 ^ 63)).quot 64 (Fx.lit (-1)) = ⟨-2 ^ 63, true⟩

/-! ### Invariants -/

/-- The invariants hold right after reset. -/
def Obligations.InvariantsHoldAtReset : Prop :=
  BlockInv State.reset ∧ TraceInv State.reset

/-- R16, R17, R18, R21, R22, R27 (derived): every step from a state that meets it keeps `BlockInv`: H4 and H5 stay in 0 ..
4095; while calibration is valid `IDENTITY` is the hash of the constants' byte image, and while it is not, constants,
`IDENTITY` and `SEQ` hold their reset values; a command in flight is an accepted one with exactly the bytes of its
answered phases staged. -/
def Obligations.EveryStepKeepsBlockInv : Prop :=
  ∀ s t : State, BlockInv s → step s = .next t → BlockInv t

/-- R31, R34, R43, R47 to R49, R51, R61, R88, R149 (derived): every step keeps `TraceInv`: only the listed registers are
addressed, at the listed widths; only images with defined codes are written, and never the soft-reset register; an RD
comes only right after a successful SEL, and the write of 0xF4 only right after a successful write of 0xF2. -/
def Obligations.EveryStepKeepsBusDiscipline : Prop :=
  ∀ s t : State, TraceInv s → step s = .next t → TraceInv t

/-! ### A corner the rules disagree on -/

/-- R113, R114, and R115 (a) but for its `ovf`: with `T1` = `T2` = `T3` = 0 COMP_T answers a fine temperature and a
temperature of 0 for every raw count, and nothing but the response list changes. That `ovf` is 1 from 741456 up, where the
square overflows, is the model's choice between R113 and R115 (a) (log entry 18). -/
def Obligations.ZeroConstantsGiveZeroTemperature : Prop :=
  ∀ (s : State) (adcT : BitVec 20), s.calValid = true → s.cal.T1 = 0 → s.cal.T2 = 0 → s.cal.T3 = 0 →
    exec (.compT adcT) s = .next (s.ended s.bus [] ⟨.ok, decide (741456 ≤ adcT.toNat), 0⟩)
end

