-- ==== Sys2Proof/Laws/State.lean ====
section
/-! SUPPORT. One lemma per field per update of State: what each shared operation leaves of the state. -/

namespace Sys2Proof.Machine

variable (s : State)

@[simp] theorem finish_cal (r : Response) : (s.finish r).cal = s.cal := rfl
@[simp] theorem finish_calValid (r : Response) : (s.finish r).calValid = s.calValid := rfl
@[simp] theorem finish_identity (r : Response) : (s.finish r).identity = s.identity := rfl
@[simp] theorem finish_seq (r : Response) : (s.finish r).seq = s.seq := rfl
@[simp] theorem finish_flight (r : Response) : (s.finish r).flight = none := rfl
@[simp] theorem finish_host (r : Response) : (s.finish r).host = s.host := rfl
@[simp] theorem finish_bus (r : Response) : (s.finish r).bus = s.bus := rfl
@[simp] theorem finish_responses (r : Response) : (s.finish r).responses = s.responses ++ [r] := rfl
@[simp] theorem finish_trace (r : Response) : (s.finish r).trace = s.trace := rfl

/-- A raised status ends the command with an empty payload (R132). -/
@[simp] theorem raise_eq (st : Status) : s.raise st = s.finish ⟨st, false, 0⟩ := rfl
/-- A response with `ST_OK` ends the command (R10). -/
@[simp] theorem respond_eq (ovf : Bool) (res : BitVec 64) : s.respond ovf res = s.finish ⟨.ok, ovf, res⟩ := rfl

variable (i : Instr) (k : Nat) (staged : List Byte)

@[simp] theorem await_cal : (s.await i k staged).cal = s.cal := rfl
@[simp] theorem await_calValid : (s.await i k staged).calValid = s.calValid := rfl
@[simp] theorem await_identity : (s.await i k staged).identity = s.identity := rfl
@[simp] theorem await_seq : (s.await i k staged).seq = s.seq := rfl
@[simp] theorem await_flight : (s.await i k staged).flight = some ⟨i, k, staged⟩ := rfl
@[simp] theorem await_host : (s.await i k staged).host = s.host := rfl
@[simp] theorem await_bus : (s.await i k staged).bus = s.bus := rfl
@[simp] theorem await_responses : (s.await i k staged).responses = s.responses := rfl
@[simp] theorem await_trace : (s.await i k staged).trace = s.trace := rfl

variable (r : Request) (a : Answer) (later : List BusEvent)

@[simp] theorem logPhase_cal : (s.logPhase r a later).cal = s.cal := rfl
@[simp] theorem logPhase_calValid : (s.logPhase r a later).calValid = s.calValid := rfl
@[simp] theorem logPhase_identity : (s.logPhase r a later).identity = s.identity := rfl
@[simp] theorem logPhase_seq : (s.logPhase r a later).seq = s.seq := rfl
@[simp] theorem logPhase_flight : (s.logPhase r a later).flight = s.flight := rfl
@[simp] theorem logPhase_host : (s.logPhase r a later).host = s.host := rfl
@[simp] theorem logPhase_bus : (s.logPhase r a later).bus = later := rfl
@[simp] theorem logPhase_responses : (s.logPhase r a later).responses = s.responses := rfl
@[simp] theorem logPhase_trace : (s.logPhase r a later).trace = s.trace ++ [⟨r, some a⟩] := rfl

variable (hs : List HostEvent)

@[simp] theorem takeHost_cal : (s.takeHost hs).cal = s.cal := rfl
@[simp] theorem takeHost_calValid : (s.takeHost hs).calValid = s.calValid := rfl
@[simp] theorem takeHost_identity : (s.takeHost hs).identity = s.identity := rfl
@[simp] theorem takeHost_seq : (s.takeHost hs).seq = s.seq := rfl
@[simp] theorem takeHost_flight : (s.takeHost hs).flight = s.flight := rfl
@[simp] theorem takeHost_host : (s.takeHost hs).host = hs := rfl
@[simp] theorem takeHost_bus : (s.takeHost hs).bus = s.bus := rfl
@[simp] theorem takeHost_responses : (s.takeHost hs).responses = s.responses := rfl
@[simp] theorem takeHost_trace : (s.takeHost hs).trace = s.trace := rfl

@[simp] theorem resetBlock_cal : (resetBlock s).cal = Calibration.zero := rfl
@[simp] theorem resetBlock_calValid : (resetBlock s).calValid = false := rfl
@[simp] theorem resetBlock_identity : (resetBlock s).identity = 0 := rfl
@[simp] theorem resetBlock_seq : (resetBlock s).seq = .uninitialized := rfl
@[simp] theorem resetBlock_flight : (resetBlock s).flight = none := rfl
@[simp] theorem resetBlock_host : (resetBlock s).host = s.host := rfl
@[simp] theorem resetBlock_bus : (resetBlock s).bus = s.bus := rfl
@[simp] theorem resetBlock_responses : (resetBlock s).responses = s.responses := rfl
@[simp] theorem resetBlock_trace : (resetBlock s).trace = s.trace ++ abandonedPhases s := rfl

/-- Waiting after logged phases forgets how the command got there: the later `flight` stands. -/
@[simp] theorem finish_await (x : Response) : (s.await i k staged).finish x = s.finish x := rfl

end Sys2Proof.Machine
end

