-- ==== Sys2Proof/Laws/Arithmetic.lean ====
section
/-! SUPPORT. The arithmetic of the pipeline: `wrap` is the identity on numbers that fit, an operation with `ovf` = 0 is
exact, and a number that fits a width fits every wider one (R106 to R110). -/

namespace Sys2Proof.Machine

theorem fits_iff (W : Nat) (x : Int) : fits W x = true ↔ -2 ^ (W - 1) ≤ x ∧ x < 2 ^ (W - 1) := by
  simp [fits]

/-- Twice the sign weight is the modulus. -/
theorem two_pow_split {W : Nat} (hW : 0 < W) : (2 : Int) ^ W = 2 * 2 ^ (W - 1) := by
  obtain ⟨n, rfl⟩ := Nat.exists_eq_succ_of_ne_zero hW.ne'
  rw [Nat.succ_sub_one, pow_succ, mul_comm]

/-- The wrapped value lies in the signed range (R9). -/
theorem wrap_fits {W : Nat} (hW : 0 < W) (x : Int) : fits W (wrap W x) = true := by
  have h := two_pow_split hW
  have hp : (0 : Int) < 2 ^ (W - 1) := by positivity
  have h1 := Int.emod_nonneg x (b := 2 ^ W) (by omega)
  have h2 := Int.emod_lt_of_pos x (b := 2 ^ W) (by omega)
  rw [fits_iff]
  simp only [wrap]
  split <;> omega

/-- The wrapped value is congruent to the exact one (R9). -/
theorem wrap_emod (W : Nat) (x : Int) : wrap W x % 2 ^ W = x % 2 ^ W := by
  simp only [wrap]
  split
  · exact Int.emod_emod_of_dvd x (dvd_refl _)
  · rw [Int.sub_emod, Int.emod_self]; simp

/-- A number that fits is its own wrapped value (R106). -/
theorem wrap_of_fits {W : Nat} (hW : 0 < W) {x : Int} (h : fits W x = true) : wrap W x = x := by
  have h2 := two_pow_split hW
  rw [fits_iff] at h
  simp only [wrap]
  by_cases hx : 0 ≤ x
  · rw [Int.emod_eq_of_lt hx (by omega)]
    split <;> omega
  · have : x % 2 ^ W = x + 2 ^ W := by
      rw [← Int.add_emod_right x (2 ^ W), Int.emod_eq_of_lt (by omega) (by omega)]
    rw [this]
    split <;> omega

/-- What fits a width fits a wider one. -/
theorem fits_mono {W V : Nat} (h : W ≤ V) {x : Int} (hx : fits W x = true) : fits V x = true := by
  rw [fits_iff] at *
  have : (2 : Int) ^ (W - 1) ≤ 2 ^ (V - 1) := by
    apply pow_le_pow_right₀ (by norm_num)
    omega
  omega

/-- `ovf` = 0 after narrowing says that no operand overflowed and the exact result fits (R110). -/
@[simp] theorem narrow_ovf_false (W : Nat) (x : Int) (o : Bool) :
    (Fx.narrow W x o).ovf = false ↔ o = false ∧ fits W x = true := by
  cases o <;> simp [Fx.narrow]

/-- ... and then the result is exact (R110). -/
theorem narrow_val {W : Nat} (hW : 0 < W) {x : Int} {o : Bool} (h : (Fx.narrow W x o).ovf = false) :
    (Fx.narrow W x o).val = x :=
  wrap_of_fits hW ((narrow_ovf_false W x o).mp h).2

/-- ... and narrowing to any wider width gives the same (R110). -/
theorem narrow_wider {W V : Nat} (hV : W ≤ V) (hW : 0 < W) {x : Int} {o : Bool} (h : (Fx.narrow W x o).ovf = false) :
    Fx.narrow V x o = Fx.narrow W x o := by
  have hf := ((narrow_ovf_false W x o).mp h).2
  have hg := fits_mono hV hf
  simp only [Fx.narrow, wrap_of_fits hW hf, wrap_of_fits (hW.trans_le hV) hg, hf, hg]

variable {W : Nat} (hW : 0 < W) {a b : Fx} (n : Nat)
include hW

theorem add_exact (h : (Fx.add W a b).ovf = false) :
    (Fx.add W a b).val = a.val + b.val ∧ a.ovf = false ∧ b.ovf = false :=
  ⟨narrow_val hW h, by simpa using ((narrow_ovf_false _ _ _).mp h).1⟩

theorem sub_exact (h : (Fx.sub W a b).ovf = false) :
    (Fx.sub W a b).val = a.val - b.val ∧ a.ovf = false ∧ b.ovf = false :=
  ⟨narrow_val hW h, by simpa using ((narrow_ovf_false _ _ _).mp h).1⟩

theorem mul_exact (h : (Fx.mul W a b).ovf = false) :
    (Fx.mul W a b).val = a.val * b.val ∧ a.ovf = false ∧ b.ovf = false :=
  ⟨narrow_val hW h, by simpa using ((narrow_ovf_false _ _ _).mp h).1⟩

theorem quot_exact (h : (Fx.quot W a b).ovf = false) :
    (Fx.quot W a b).val = a.val.tdiv b.val ∧ a.ovf = false ∧ b.ovf = false :=
  ⟨narrow_val hW h, by simpa using ((narrow_ovf_false _ _ _).mp h).1⟩

theorem shl_exact (h : (Fx.shl W a n).ovf = false) :
    (Fx.shl W a n).val = a.val * 2 ^ n ∧ a.ovf = false :=
  ⟨narrow_val hW h, ((narrow_ovf_false _ _ _).mp h).1⟩

omit hW

@[simp] theorem sar_val : (a.sar n).val = a.val / 2 ^ n := rfl
@[simp] theorem sar_ovf : (a.sar n).ovf = a.ovf := rfl
@[simp] theorem lit_val (x : Int) : (Fx.lit x).val = x := rfl
@[simp] theorem lit_ovf (x : Int) : (Fx.lit x).ovf = false := rfl
@[simp] theorem unsignedFx_val {m : Nat} (x : BitVec m) : (unsignedFx x).val = x.toNat := rfl
@[simp] theorem unsignedFx_ovf {m : Nat} (x : BitVec m) : (unsignedFx x).ovf = false := rfl
@[simp] theorem signedFx_val {m : Nat} (x : BitVec m) : (signedFx x).val = x.toInt := rfl
@[simp] theorem signedFx_ovf {m : Nat} (x : BitVec m) : (signedFx x).ovf = false := rfl
@[simp] theorem widenP1_val (p1u : Bool) (x : BitVec 16) : (widenP1 p1u x).val = exactP1 p1u x := by
  cases p1u <;> rfl
@[simp] theorem widenP1_ovf (p1u : Bool) (x : BitVec 16) : (widenP1 p1u x).ovf = false := by
  cases p1u <;> rfl

end Sys2Proof.Machine
end

