-- ==== Sys2Proof/Laws/Bus.lean ====
section
/-! SUPPORT. What running the bus phases of a command can do, said once (R33 to R38, R50, R134). -/

namespace Sys2Proof.Machine

/-- The state once the requests `rs` have been answered with `as` and the transport goes on with `later`. -/
def State.afterPhases (s : State) (rs : List Request) (as : List Answer) (later : List BusEvent) : State :=
  { s with bus := later, trace := s.trace ++ answeredPhases rs as }

variable (s : State) (rs : List Request) (as : List Answer) (later : List BusEvent)

@[simp] theorem afterPhases_cal : (s.afterPhases rs as later).cal = s.cal := rfl
@[simp] theorem afterPhases_calValid : (s.afterPhases rs as later).calValid = s.calValid := rfl
@[simp] theorem afterPhases_identity : (s.afterPhases rs as later).identity = s.identity := rfl
@[simp] theorem afterPhases_seq : (s.afterPhases rs as later).seq = s.seq := rfl
@[simp] theorem afterPhases_flight : (s.afterPhases rs as later).flight = s.flight := rfl
@[simp] theorem afterPhases_host : (s.afterPhases rs as later).host = s.host := rfl
@[simp] theorem afterPhases_bus : (s.afterPhases rs as later).bus = later := rfl
@[simp] theorem afterPhases_responses : (s.afterPhases rs as later).responses = s.responses := rfl
@[simp] theorem afterPhases_trace :
    (s.afterPhases rs as later).trace = s.trace ++ answeredPhases rs as := rfl

/-- Logging one more phase in front of the rest. -/
theorem logPhase_afterPhases (r : Request) (a : Answer) (l : List BusEvent) :
    (s.logPhase r a l).afterPhases rs as later = s.afterPhases (r :: rs) (a :: as) later := by
  simp [State.afterPhases, State.logPhase, answeredPhases]

/-- One answer is one event. -/
@[simp] theorem answersThen_cons (a : Answer) :
    answersThen (a :: as) later = .answer a :: answersThen as later := rfl

@[simp] theorem answersThen_nil : answersThen [] later = later := rfl

/-- A transport that answers every request with success carries the command to its commit (R50). -/
theorem issue_all_succeed (c : Command) (rs : List Request) (as : List Answer) (k : Nat) (staged : List Byte)
    (s : State) (h : AllSucceed rs as) (hbus : s.bus = answersThen as later) :
    c.issue rs k staged s = c.commit (staged ++ deliveredBytes rs as) (s.afterPhases rs as later) := by
  induction rs generalizing as k staged s with
  | nil =>
    cases as with
    | nil =>
      have hs : s.afterPhases [] [] later = s := by
        cases s; simp_all [State.afterPhases, answeredPhases, answersThen]
      simp [Command.issue, deliveredBytes, hs]
    | cons a as => exact absurd h (by simp [AllSucceed])
  | cons r rs ih =>
    cases as with
    | nil => exact absurd h (by simp [AllSucceed])
    | cons a as =>
      obtain ⟨ha, hrest⟩ := h
      rw [answersThen_cons] at hbus
      simp only [Command.issue, hbus, ha, if_true]
      rw [ih as (k + 1) _ _ hrest rfl, logPhase_afterPhases]
      simp [deliveredBytes, List.append_assoc]

/-- The first failed phase ends the command with the status its index raises; later phases are not issued (R34, R136). -/
theorem issue_first_failure (c : Command) (done rest : List Request) (as : List Answer) (k : Nat)
    (staged : List Byte) (s : State) (r : Request) (a : Answer) (h : AllSucceed done as)
    (hr : a.succeeds r = false) (hbus : s.bus = answersThen (as ++ [a]) later) :
    c.issue (done ++ r :: rest) k staged s
      = (s.afterPhases (done ++ [r]) (as ++ [a]) later).raise (c.failStatus (k + done.length)) := by
  induction done generalizing as k staged s with
  | nil =>
    cases as with
    | nil =>
      simp only [List.nil_append, answersThen_cons, answersThen_nil] at hbus
      simp [Command.issue, hbus, hr, State.afterPhases, State.logPhase, answeredPhases]
    | cons b as => exact absurd h (by simp [AllSucceed])
  | cons q done ih =>
    cases as with
    | nil => exact absurd h (by simp [AllSucceed])
    | cons b as =>
      obtain ⟨hb, hrest⟩ := h
      simp only [List.cons_append, answersThen_cons] at hbus
      simp only [List.cons_append, Command.issue, hbus, hb, if_true]
      rw [ih as (k + 1) _ _ hrest rfl, logPhase_afterPhases, List.length_cons]
      rw [Nat.add_assoc, Nat.add_comm 1]

/-- The transport falls silent: it has nothing to say, or says so for this step (R158). -/
def SilentAt (bus later : List BusEvent) : Prop := (bus = [] ∧ later = []) ∨ bus = .silent :: later

/-- While the transport is silent the command waits with the bytes it has read (R158). -/
theorem issue_waits (c : Command) (done rest : List Request) (as : List Answer) (k : Nat) (staged : List Byte)
    (s : State) (r : Request) (tail : List BusEvent) (h : AllSucceed done as) (hsil : SilentAt tail later)
    (hbus : s.bus = answersThen as tail) :
    c.issue (done ++ r :: rest) k staged s
      = (s.afterPhases done as later).await c.instr (k + done.length) (staged ++ deliveredBytes done as) := by
  induction done generalizing as k staged s with
  | nil =>
    cases as with
    | nil =>
      rcases hsil with ⟨h1, h2⟩ | h1
      · subst h1 h2
        rw [answersThen_nil] at hbus
        have hs : s.afterPhases [] [] [] = s := by
          cases s; simp_all [State.afterPhases, answeredPhases]
        simp [Command.issue, hbus, deliveredBytes, hs]
      · subst h1
        rw [answersThen_nil] at hbus
        simp [Command.issue, hbus, deliveredBytes, State.afterPhases, answeredPhases]
    | cons b as => exact absurd h (by simp [AllSucceed])
  | cons q done ih =>
    cases as with
    | nil => exact absurd h (by simp [AllSucceed])
    | cons b as =>
      obtain ⟨hb, hrest⟩ := h
      rw [answersThen_cons] at hbus
      simp only [List.cons_append, Command.issue, hbus, hb, if_true]
      rw [ih as (k + 1) _ _ hrest rfl, logPhase_afterPhases]
      simp [deliveredBytes, List.append_assoc, Nat.add_comm, Nat.add_left_comm]

/-- Everything the phases of a command can come to: all succeed and the command commits, one fails and its status is
raised, or the command waits for the answer to one. -/
theorem issue_cases (c : Command) (rs : List Request) (k : Nat) (staged : List Byte) (s : State) :
    (∃ as later, AllSucceed rs as ∧ s.bus = answersThen as later ∧
      c.issue rs k staged s = c.commit (staged ++ deliveredBytes rs as) (s.afterPhases rs as later)) ∨
    (∃ done r rest as a later, rs = done ++ r :: rest ∧ AllSucceed done as ∧ a.succeeds r = false ∧
      s.bus = answersThen (as ++ [a]) later ∧
      c.issue rs k staged s
        = (s.afterPhases (done ++ [r]) (as ++ [a]) later).raise (c.failStatus (k + done.length))) ∨
    (∃ done r rest as tail later, rs = done ++ r :: rest ∧ AllSucceed done as ∧ SilentAt tail later ∧
      s.bus = answersThen as tail ∧
      c.issue rs k staged s
        = (s.afterPhases done as later).await c.instr (k + done.length) (staged ++ deliveredBytes done as)) := by
  have split : ∀ (rs : List Request) (bus : List BusEvent),
      (∃ as later, AllSucceed rs as ∧ bus = answersThen as later) ∨
      (∃ done r rest as a later, rs = done ++ r :: rest ∧ AllSucceed done as ∧ a.succeeds r = false ∧
        bus = answersThen (as ++ [a]) later) ∨
      (∃ done r rest as tail later, rs = done ++ r :: rest ∧ AllSucceed done as ∧ SilentAt tail later ∧
        bus = answersThen as tail) := by
    intro rs
    induction rs with
    | nil => intro bus; exact .inl ⟨[], bus, trivial, rfl⟩
    | cons r rs ih =>
      intro bus
      match bus with
      | [] => exact .inr (.inr ⟨[], r, rs, [], [], [], rfl, trivial, .inl ⟨rfl, rfl⟩, rfl⟩)
      | .silent :: tl => exact .inr (.inr ⟨[], r, rs, [], .silent :: tl, tl, rfl, trivial, .inr rfl, rfl⟩)
      | .answer a :: tl =>
        cases ha : a.succeeds r with
        | false => exact .inr (.inl ⟨[], r, rs, [], a, tl, rfl, trivial, ha, rfl⟩)
        | true =>
          rcases ih tl with ⟨as, l, h, hb⟩ | ⟨d, q, rest, as, b, l, hrs, h, hf, hb⟩ | ⟨d, q, rest, as, t, l, hrs, h, hsil, hb⟩
          · exact .inl ⟨a :: as, l, ⟨ha, h⟩, by rw [hb]; rfl⟩
          · exact .inr (.inl ⟨r :: d, q, rest, a :: as, b, l, by rw [hrs]; rfl, ⟨ha, h⟩, hf, by rw [hb]; rfl⟩)
          · exact .inr (.inr ⟨r :: d, q, rest, a :: as, t, l, by rw [hrs]; rfl, ⟨ha, h⟩, hsil, by rw [hb]; rfl⟩)
  rcases split rs s.bus with ⟨as, l, h, hb⟩ | ⟨d, q, rest, as, b, l, hrs, h, hf, hb⟩ | ⟨d, q, rest, as, t, l, hrs, h, hsil, hb⟩
  · exact .inl ⟨as, l, h, hb, issue_all_succeed l c rs as k staged s h hb⟩
  · subst hrs
    exact .inr (.inl ⟨d, q, rest, as, b, l, rfl, h, hf, hb, issue_first_failure l c d rest as k staged s q b h hf hb⟩)
  · subst hrs
    exact .inr (.inr ⟨d, q, rest, as, t, l, rfl, h, hsil, hb, issue_waits l c d rest as k staged s q t h hsil hb⟩)

/-- The answers that succeed are as many as the requests. -/
theorem AllSucceed.length_eq {rs : List Request} {as : List Answer} (h : AllSucceed rs as) :
    as.length = rs.length := by
  induction rs generalizing as with
  | nil => cases as <;> simp_all [AllSucceed]
  | cons r rs ih => cases as <;> simp_all [AllSucceed]

/-- Successful phases deliver exactly the bytes asked for (R33, R36). -/
theorem AllSucceed.delivered_length {rs : List Request} {as : List Answer} (h : AllSucceed rs as) :
    (deliveredBytes rs as).length = bytesWanted rs := by
  induction rs generalizing as with
  | nil => cases as <;> simp_all [AllSucceed, deliveredBytes, bytesWanted]
  | cons r rs ih =>
    cases as with
    | nil => simp [AllSucceed] at h
    | cons a as =>
      obtain ⟨ha, hrest⟩ := h
      cases r <;> simp_all [deliveredBytes, bytesWanted, Answer.delivers, Answer.succeeds]

end Sys2Proof.Machine
end

