-- ==== Sys2Proof/Laws/Operands.lean ====
section
/-! SUPPORT. The operand checks and register images, each in the form the rules' tables give it. -/

namespace Sys2Proof.Machine

/-- The image of 0xF5 is the two fields with zero bits below (R49). -/
theorem configImage_eq : ∀ period filter : BitVec 3, configImage period filter = period ++ filter ++ 0#2 := by
  decide

/-- The image of 0xF2 is the code in bits 2:0 (R47). -/
theorem humidityImage_eq : ∀ osrsH : BitVec 3, humidityImage osrsH = 0#5 ++ osrsH := by
  decide

/-- The image of 0xF4 is the three fields side by side (R48). -/
theorem measureImage_eq : ∀ (osrsT osrsP : BitVec 3) (mode : BitVec 2),
    measureImage osrsT osrsP mode = osrsT ++ osrsP ++ mode := by
  decide

/-- A filter code is reserved exactly when the enumeration lacks it (R61, R64). -/
theorem filterReserved_eq : ∀ filter : BitVec 3, filterReserved filter = !Instr.filterDefined filter := by
  decide

/-- An oversampling code is reserved exactly when the enumeration lacks it (R61, R65). -/
theorem oversamplingReserved_eq : ∀ osrs : BitVec 3, oversamplingReserved osrs = !Instr.oversamplingDefined osrs := by
  decide

/-- A mode code is reserved exactly when the enumeration lacks it (R61, R62). -/
theorem modeReserved_eq : ∀ mode : BitVec 2, modeReserved mode = !Instr.modeDefined mode := by
  decide

end Sys2Proof.Machine
end

