-- ==== Sys2Proof/Laws/Commands.lean ====
section
/-! SUPPORT. What every command is made of: its phases are those its rule lists, its checks are those of R134, and a step
is one of five things. -/

namespace Sys2Proof.Machine

/-- Every meaning performs the command its instruction stands for, and answers a next state. -/
theorem exec_eq_run (i : Instr) (s : State) : exec i s = .next ((commandOf i).run s) := by
  cases i <;> rfl

@[simp] theorem commandOf_instr (i : Instr) : (commandOf i).instr = i := by
  cases i <;> rfl

/-- The phases of a command are those its rule lists (R22, R72, R86 to R92). -/
theorem commandOf_requests (i : Instr) : (commandOf i).requests = ruledRequests i := by
  cases i with
  | configure period filter => simp [commandOf, configureCommand, memWrite, ruledRequests, configImage_eq]
  | start osrsH osrsT osrsP mode =>
    simp [commandOf, startCommand, memWrite, ruledRequests, humidityImage_eq, measureImage_eq]
  | _ => rfl

/-- Steps 2 to 4 of R134, for every command. -/
theorem commandOf_check (i : Instr) (s : State) :
    (commandOf i).check s
      = if i.WellFormed = false then some .operand
        else if needsCal i = true ∧ s.calValid = false then some .noCal
        else if admitted i s.seq = false then some .badState
        else none := by
  cases i with
  | configure period filter =>
    cases hs : s.seq <;> cases hv : s.calValid <;> cases hf : Instr.filterDefined filter <;>
      simp [commandOf, configureCommand, checkOrder, filterReserved_eq, Instr.WellFormed, needsCal, admitted, *]
  | start osrsH osrsT osrsP mode =>
    cases hs : s.seq <;> cases hv : s.calValid <;> cases hm : Instr.modeDefined mode <;>
      cases h1 : Instr.oversamplingDefined osrsH <;> cases h2 : Instr.oversamplingDefined osrsT <;>
      cases h3 : Instr.oversamplingDefined osrsP <;>
      simp [commandOf, startCommand, checkOrder, oversamplingReserved_eq, modeReserved_eq, Instr.WellFormed, needsCal,
        admitted, startAdmitted, *]
  | probe | loadCal | isBusy | readSample =>
    simp [commandOf, probeCommand, loadCalCommand, isBusyCommand, readSampleCommand, Instr.WellFormed, needsCal, admitted]
  | compT _ | compP _ _ | compH _ _ =>
    cases hv : s.calValid <;>
      simp [commandOf, compTCommand, compPCommand, compHCommand, needsCalibration, checkOrder, Instr.WellFormed, needsCal,
        admitted, *]

/-- A command passes its checks exactly when the state accepts it (R134). -/
theorem check_none_iff (i : Instr) (s : State) : (commandOf i).check s = none ↔ Accepted i s := by
  rw [commandOf_check]
  unfold Accepted
  cases i.WellFormed <;> cases needsCal i <;> cases s.calValid <;> cases admitted i s.seq <;> simp

/-- An accepted command issues its phases from the first (R134, R22). -/
theorem exec_of_accepted {i : Instr} {s : State} (h : Accepted i s) :
    exec i s = .next ((commandOf i).issue (ruledRequests i) 0 [] s) := by
  rw [exec_eq_run, Command.run, (check_none_iff i s).mpr h, commandOf_requests]

/-- Only START's second phase raises `ST_BUS_PARTIAL` (R136, R137). -/
theorem commandOf_failStatus (i : Instr) (k : Nat) :
    (commandOf i).failStatus k
      = match i with
        | .start _ _ _ _ => if k = 0 then .bus else .busPartial
        | _ => .bus := by
  cases i with
  | start _ _ _ _ => cases k <;> rfl
  | _ => rfl

/-- Every commit produces exactly one response, with `ST_OK`, and touches neither port nor trace. -/
theorem commit_responds (i : Instr) (bytes : List Byte) (s : State) :
    ∃ ovf res, ((commandOf i).commit bytes s).responses = s.responses ++ [⟨.ok, ovf, res⟩]
      ∧ ((commandOf i).commit bytes s).flight = none
      ∧ ((commandOf i).commit bytes s).host = s.host
      ∧ ((commandOf i).commit bytes s).bus = s.bus
      ∧ ((commandOf i).commit bytes s).trace = s.trace := by
  cases i <;> exact ⟨_, _, rfl, rfl, rfl, rfl, rfl⟩

/-- A step is one of five things. -/
theorem step_cases (s : State) :
    (∃ later, s.host = .reset :: later ∧ step s = .next (resetBlock (s.takeHost later))) ∨
    (∃ f, s.flight = some f ∧ ¬ ResetNext s ∧ step s = .next (resume f s)) ∨
    (∃ w later i, s.host = .command w :: later ∧ s.flight = none ∧ decode w = .ok i
      ∧ step s = exec i (s.takeHost later)) ∨
    (∃ w later e, s.host = .command w :: later ∧ s.flight = none ∧ decode w = .error e
      ∧ step s = .next ((s.takeHost later).raise .illegal)) ∨
    (s.host = [] ∧ s.flight = none ∧ step s = .next s) := by
  cases hh : s.host with
  | nil =>
    cases hf : s.flight with
    | none => exact .inr (.inr (.inr (.inr ⟨rfl, rfl, by simp [step, activity, hh, hf]⟩)))
    | some f => exact .inr (.inl ⟨f, rfl, by simp [ResetNext, hh], by simp [step, activity, hh, hf]⟩)
  | cons e later =>
    cases e with
    | reset => exact .inl ⟨later, rfl, by simp [step, activity, hh]⟩
    | command w =>
      cases hf : s.flight with
      | some f => exact .inr (.inl ⟨f, rfl, by simp [ResetNext, hh], by simp [step, activity, hh, hf]⟩)
      | none =>
        cases hd : decode w with
        | ok i => exact .inr (.inr (.inl ⟨w, later, i, rfl, rfl, hd, by simp [step, activity, hh, hf, accept, hd]⟩))
        | error x =>
          exact .inr (.inr (.inr (.inl ⟨w, later, x, rfl, rfl, hd, by simp [step, activity, hh, hf, accept, hd]⟩)))

/-! ### What a command can come to -/

/-- A status raised after phases, in the form the claims use. -/
theorem raise_afterPhases (s : State) (rs : List Request) (as : List Answer) (later : List BusEvent) (st : Status) :
    (s.afterPhases rs as later).raise st = s.ended later (answeredPhases rs as) ⟨st, false, 0⟩ := rfl

/-- An `ST_OK` response after phases, in the form the claims use. -/
theorem respond_afterPhases (s : State) (rs : List Request) (as : List Answer) (later : List BusEvent) (ovf : Bool)
    (res : BitVec 64) :
    (s.afterPhases rs as later).respond ovf res = s.ended later (answeredPhases rs as) ⟨.ok, ovf, res⟩ := rfl

/-- A status raised before any phase, in the form the claims use. -/
theorem raise_refusedWith (s : State) (st : Status) : s.raise st = s.refusedWith st := rfl

/-- An accepted command whose phases all succeed commits with the bytes they delivered. -/
theorem exec_all_succeed {i : Instr} {s : State} (as : List Answer) (later : List BusEvent) (h : Accepted i s)
    (hs : AllSucceed (ruledRequests i) as) (hbus : s.bus = answersThen as later) :
    exec i s = .next ((commandOf i).commit (deliveredBytes (ruledRequests i) as)
      (s.afterPhases (ruledRequests i) as later)) := by
  rw [exec_of_accepted h, issue_all_succeed later _ _ as 0 [] s hs hbus, List.nil_append]

/-- Performing a command is either a refusal with a status other than `ST_OK` or issuing the phases of an accepted one. -/
theorem run_cases (i : Instr) (s : State) :
    (Accepted i s ∧ (commandOf i).run s = (commandOf i).issue (ruledRequests i) 0 [] s) ∨
    ∃ st, (commandOf i).check s = some st ∧ st ≠ .ok ∧ (commandOf i).run s = s.refusedWith st := by
  cases h : (commandOf i).check s with
  | none => exact .inl ⟨(check_none_iff i s).mp h, by simp [Command.run, h, commandOf_requests]⟩
  | some st =>
    refine .inr ⟨st, rfl, ?_, by simp only [Command.run, h]; rfl⟩
    rintro rfl
    rw [commandOf_check] at h
    repeat' split at h
    all_goals simp at h

/-- Issuing phases either commits, or leaves the registers as they were and appends at most one non-OK response. -/
theorem issue_registers (i : Instr) (rs : List Request) (k : Nat) (staged : List Byte) (s : State) :
    (∃ as later, AllSucceed rs as ∧ s.bus = answersThen as later ∧
      (commandOf i).issue rs k staged s
        = (commandOf i).commit (staged ++ deliveredBytes rs as) (s.afterPhases rs as later)) ∨
    (SameRegisters s ((commandOf i).issue rs k staged s) ∧
      (((commandOf i).issue rs k staged s).responses = s.responses ∨
        ∃ q, ((commandOf i).issue rs k staged s).responses
          = s.responses ++ [⟨(commandOf i).failStatus q, false, 0⟩])) := by
  rcases issue_cases (commandOf i) rs k staged s with
    ⟨as, l, h, hb, he⟩ | ⟨d, q, rest, as, b, l, hrs, h, hf, hb, he⟩ | ⟨d, q, rest, as, tail, l, hrs, h, hsil, hb, he⟩
  · exact .inl ⟨as, l, h, hb, he⟩
  · exact .inr (by simp [he, SameRegisters])
  · exact .inr (by simp [he, SameRegisters])

/-- A step that gives a response refused the command, ended it at a failed phase, or committed it. -/
theorem exec_response {i : Instr} {s t : State} {r : Response} (he : exec i s = .next t)
    (hr : t.responses = s.responses ++ [r]) :
    (∃ st, (commandOf i).check s = some st ∧ t = s.refusedWith st ∧ r = ⟨st, false, 0⟩) ∨
    (Accepted i s ∧ ∃ k request later phases, (ruledRequests i)[k]? = some request ∧
      r = ⟨(commandOf i).failStatus k, false, 0⟩ ∧ t = s.ended later phases r) ∨
    (Accepted i s ∧ ∃ as later, AllSucceed (ruledRequests i) as ∧ s.bus = answersThen as later ∧
      t = (commandOf i).commit (deliveredBytes (ruledRequests i) as) (s.afterPhases (ruledRequests i) as later)) := by
  rw [exec_eq_run, Host.Outcome.next.injEq] at he
  rcases run_cases i s with ⟨hacc, hrun⟩ | ⟨st, hc, -, hrun⟩
  · rw [hrun] at he
    rcases issue_cases (commandOf i) (ruledRequests i) 0 [] s with
      ⟨as, l, h, hb, he'⟩ | ⟨d, q, rest, as, b, l, hrs, h, hf, hb, he'⟩ | ⟨d, q, rest, as, tail, l, hrs, h, hsil, hb, he'⟩
    · exact .inr (.inr ⟨hacc, as, l, h, hb, by rw [← he, he', List.nil_append]⟩)
    · rw [he', raise_afterPhases, Nat.zero_add] at he
      subst he
      have : r = ⟨(commandOf i).failStatus d.length, false, 0⟩ := by simpa [State.ended] using hr.symm
      subst this
      exact .inr (.inl ⟨hacc, d.length, q, l, _, by rw [hrs]; simp, rfl, rfl⟩)
    · rw [he'] at he
      subst he
      simp at hr
  · rw [hrun] at he
    subst he
    exact .inl ⟨st, hc, rfl, by simpa [State.refusedWith] using hr.symm⟩

/-- What a command does does not depend on the in-flight marker it starts with: the command itself sets it. -/
theorem issue_flight (i : Instr) (rs : List Request) (k : Nat) (staged : List Byte) (s : State) (f : Option Flight) :
    (commandOf i).issue rs k staged { s with flight := f } = (commandOf i).issue rs k staged s := by
  induction rs generalizing k staged s with
  | nil => cases i <;> rfl
  | cons r rs ih =>
    obtain ⟨c1, c2, c3, c4, c5, c6, bus, c7, c8⟩ := s
    match bus with
    | [] => rfl
    | .silent :: l => rfl
    | .answer a :: l =>
      simp only [Command.issue]
      split
      · exact ih (k + 1) _ (State.logPhase ⟨c1, c2, c3, c4, c5, c6, .answer a :: l, c7, c8⟩ r a l)
      · rfl

/-- Only LOAD_CAL's commit writes the calibration registers (R28). -/
theorem commit_calibration (i : Instr) (bytes : List Byte) (s : State) (h : i ≠ .loadCal) :
    ((commandOf i).commit bytes s).cal = s.cal ∧ ((commandOf i).commit bytes s).calValid = s.calValid
      ∧ ((commandOf i).commit bytes s).identity = s.identity := by
  cases i <;> first | exact absurd rfl h | exact ⟨rfl, rfl, rfl⟩

/-- The busy predicate is the two named bits (R46). -/
theorem busyOf_eq : ∀ status : Byte, busyOf status = (status.getLsbD 3 || status.getLsbD 0) := by decide

/-- The payload of READ_SAMPLE is the bytes side by side (R59, R92 to R94). -/
theorem samplePayload_eq (t0 t1 t2 p0 p1 p2 h0 h1 : Byte) :
    samplePayload (assemble20 t0 t1 t2) (assemble20 p0 p1 p2) (assemble16 h0 h1)
      = 0#8 ++ (h0 ++ h1) ++ (p0 ++ p1 ++ p2.extractLsb' 4 4) ++ (t0 ++ t1 ++ t2.extractLsb' 4 4) := by
  apply BitVec.eq_of_getLsbD_eq
  intro j hj
  simp only [samplePayload, assemble20, assemble16, BitVec.getLsbD_append]
  interval_cases j <;> simp

end Sys2Proof.Machine
end

