-- ==== Sys2Proof/Laws/Compensation.lean ====
section
/-! SUPPORT. The compensation commands with calibration loaded: the whole next state, once each (R112, R117, R124). -/

namespace Sys2Proof.Machine

variable (s : State) (h : s.calValid = true)
include h

/-- COMP_T answers the fine temperature and the temperature, and changes nothing else. -/
theorem exec_compT (adcT : BitVec 20) :
    exec (.compT adcT) s = .next (s.ended s.bus []
      ⟨.ok, (compensateT 32 s.cal adcT).temp.ovf,
        asU32 (compensateT 32 s.cal adcT).tFine.val ++ asU32 (compensateT 32 s.cal adcT).temp.val⟩) := by
  have hacc : Accepted (.compT adcT) s := ⟨rfl, fun _ => h, rfl⟩
  rw [exec_all_succeed [] s.bus hacc (by simp [ruledRequests, AllSucceed]) rfl]
  simp [commandOf, compTCommand, compTCommit, State.finish, State.ended, State.afterPhases, ruledRequests,
    answeredPhases, widthTH]

/-- COMP_P answers the low 32 bits of the pressure, and changes nothing else. -/
theorem exec_compP (adcP : BitVec 20) (tFine : BitVec 32) :
    exec (.compP adcP tFine) s = .next (s.ended s.bus []
      ⟨.ok, (compensateP 64 p1Unsigned s.cal adcP tFine).ovf,
        (asU32 (compensateP 64 p1Unsigned s.cal adcP tFine).val).zeroExtend 64⟩) := by
  have hacc : Accepted (.compP adcP tFine) s := ⟨rfl, fun _ => h, rfl⟩
  rw [exec_all_succeed [] s.bus hacc (by simp [ruledRequests, AllSucceed]) rfl]
  simp [commandOf, compPCommand, compPCommit, State.finish, State.ended, State.afterPhases, ruledRequests,
    answeredPhases, widthP]

/-- COMP_H answers the humidity, and changes nothing else. -/
theorem exec_compH (adcH : BitVec 16) (tFine : BitVec 32) :
    exec (.compH adcH tFine) s = .next (s.ended s.bus []
      ⟨.ok, (compensateH 32 s.cal adcH tFine).ovf, (asU32 (compensateH 32 s.cal adcH tFine).val).zeroExtend 64⟩) := by
  have hacc : Accepted (.compH adcH tFine) s := ⟨rfl, fun _ => h, rfl⟩
  rw [exec_all_succeed [] s.bus hacc (by simp [ruledRequests, AllSucceed]) rfl]
  simp [commandOf, compHCommand, compHCommit, State.finish, State.ended, State.afterPhases, ruledRequests,
    answeredPhases, widthTH]

omit s h

/-- The clamped value lies in the closed range of R126. -/
theorem clampH_range (y : Int) : 0 ≤ clampH y ∧ clampH y ≤ 419430400 := by
  unfold clampH hClampMax
  constructor <;> split <;> (try split) <;> omega

end Sys2Proof.Machine
end

