-- ==== Sys2Proof/Laws/Datapath.lean ====
section
/-! SUPPORT. One lemma per operation: narrowing the exact result to a width is what a two's complement datapath of that
width computes, and the overflow indication is its overflow detector (R105 to R109). -/

namespace Sys2Proof.Machine

/-- `wrap_W` is the balanced remainder (R9). -/
theorem wrap_eq_bmod {W : Nat} (hW : 0 < W) (x : Int) : wrap W x = x.bmod (2 ^ W) := by
  have h2 := two_pow_split hW
  have hp : (0 : Int) < 2 ^ (W - 1) := by positivity
  rw [Int.bmod_def]
  push_cast
  simp only [wrap]
  split <;> split <;> omega

variable {w : Nat} (hw : 0 < w) {a b : Fx} {x y : BitVec w}
include hw

omit hw in
/-- A word's number fits its width. -/
theorem fits_toInt (x : BitVec w) : fits w x.toInt = true := by
  rw [fits_iff]
  exact ⟨x.le_toInt, x.toInt_lt⟩

/-- The number of a word whose exact value is `e`. -/
theorem narrow_wires {e : Int} {z : BitVec w} {o d : Bool} (hz : z.toInt = e.bmod (2 ^ w)) (hd : d = !fits w e) :
    Fx.narrow w e o = ⟨z.toInt, o || d⟩ := by
  rw [Fx.narrow, wrap_eq_bmod hw, hz, hd]

theorem add_wires (ha : a.val = x.toInt) (hb : b.val = y.toInt) :
    Fx.add w a b = ⟨(x + y).toInt, a.ovf || b.ovf || BitVec.saddOverflow x y⟩ := by
  rw [Fx.add, ha, hb]
  refine narrow_wires hw (BitVec.toInt_add x y) ?_
  rw [Bool.eq_iff_iff, Bool.not_eq_true', ← Bool.not_eq_true, fits_iff]
  simp only [BitVec.saddOverflow, Bool.or_eq_true, decide_eq_true_eq]
  omega

theorem sub_wires (ha : a.val = x.toInt) (hb : b.val = y.toInt) :
    Fx.sub w a b = ⟨(x - y).toInt, a.ovf || b.ovf || BitVec.ssubOverflow x y⟩ := by
  rw [Fx.sub, ha, hb]
  refine narrow_wires hw BitVec.toInt_sub ?_
  rw [Bool.eq_iff_iff, Bool.not_eq_true', ← Bool.not_eq_true, fits_iff]
  simp only [BitVec.ssubOverflow, Bool.or_eq_true, decide_eq_true_eq]
  omega

theorem mul_wires (ha : a.val = x.toInt) (hb : b.val = y.toInt) :
    Fx.mul w a b = ⟨(x * y).toInt, a.ovf || b.ovf || BitVec.smulOverflow x y⟩ := by
  rw [Fx.mul, ha, hb]
  refine narrow_wires hw (BitVec.toInt_mul x y) ?_
  rw [Bool.eq_iff_iff, Bool.not_eq_true', ← Bool.not_eq_true, fits_iff]
  simp only [BitVec.smulOverflow, Bool.or_eq_true, decide_eq_true_eq]
  omega

omit hw in
theorem sar_wires (n : Nat) (ha : a.val = x.toInt) : a.sar n = ⟨(x.sshiftRight n).toInt, a.ovf⟩ := by
  rw [Fx.sar, ha, BitVec.toInt_sshiftRight, Int.shiftRight_eq_div_pow]
  norm_cast

omit hw in
/-- Shifting left multiplies, modulo 2^w (R107). -/
theorem toInt_shl (x : BitVec w) (n : Nat) : (x <<< n).toInt = (x.toInt * 2 ^ n).bmod (2 ^ w) := by
  rw [BitVec.toInt_eq_toNat_bmod, BitVec.toNat_shiftLeft, Nat.shiftLeft_eq, BitVec.toInt_eq_toNat_bmod]
  push_cast
  rw [← Nat.cast_ofNat (R := Int), ← Nat.cast_pow, ← Nat.cast_pow, Int.emod_bmod, Int.bmod_mul_bmod]

theorem shl_wires (n : Nat) (ha : a.val = x.toInt) : Fx.shl w a n = ⟨(x <<< n).toInt, a.ovf || shlOverflow x n⟩ := by
  rw [Fx.shl, ha]
  refine narrow_wires hw (toInt_shl x n) ?_
  have hz := toInt_shl x n
  have hp : (0 : Int) < 2 ^ n := by positivity
  have hs : ((x <<< n).sshiftRight n).toInt = (x <<< n).toInt / 2 ^ n := by
    rw [BitVec.toInt_sshiftRight, Int.shiftRight_eq_div_pow]
    norm_cast
  rw [Bool.eq_iff_iff, Bool.not_eq_true', ← Bool.not_eq_true, shlOverflow, bne_iff_ne, not_iff_not,
    ← BitVec.toInt_inj, hs, hz]
  constructor
  · intro h
    by_cases hn : n ≤ w
    · have hd : (2 : Int) ^ n ∣ (x.toInt * 2 ^ n).bmod (2 ^ w) := by
        rw [Int.bmod_def]
        have hw' : (2 : Int) ^ n ∣ ((2 ^ w : Nat) : Int) := by push_cast; exact pow_dvd_pow 2 hn
        have hm : (2 : Int) ^ n ∣ x.toInt * 2 ^ n % ((2 ^ w : Nat) : Int) := by
          rw [Int.emod_def]
          exact dvd_sub (dvd_mul_left _ _) (hw'.mul_right _)
        split
        · exact hm
        · exact dvd_sub hm hw'
      rw [← Int.ediv_mul_cancel hd, h] at hz
      rw [← hz]
      exact fits_toInt _
    · have h0 : x <<< n = 0#w := BitVec.shiftLeft_eq_zero (by omega)
      rw [h0] at hz
      rw [← hz, BitVec.toInt_zero, Int.zero_ediv] at h
      rw [← h, zero_mul]
      simpa using fits_toInt (0#w)
  · intro h
    rw [← wrap_eq_bmod hw, wrap_of_fits hw h, Int.mul_ediv_cancel _ hp.ne']

omit hw in
/-- A signed operand on the datapath (R111). -/
theorem signed_wires {m : Nat} (v : BitVec m) (h : m ≤ w) : (signedFx v).val = (v.signExtend w).toInt :=
  (BitVec.toInt_signExtend_of_le h).symm

omit hw in
/-- An unsigned operand on the datapath (R111). -/
theorem unsigned_wires {m : Nat} (v : BitVec m) (h : m < w) : (unsignedFx v).val = (v.zeroExtend w).toInt := by
  have h1 : (2 : Nat) ^ m ≤ 2 ^ (w - 1) := Nat.pow_le_pow_right (by norm_num) (by omega)
  have h2 : (2 : Nat) ^ w = 2 * 2 ^ (w - 1) := by rw [← pow_succ']; congr 1; omega
  have hv := v.isLt
  have hn : (v.zeroExtend w).toNat = v.toNat := by
    simp only [BitVec.toNat_setWidth]
    exact Nat.mod_eq_of_lt (by omega)
  rw [unsignedFx_val, BitVec.toInt_eq_toNat_of_lt (by omega), hn]

end Sys2Proof.Machine
end

