-- ==== Sys2Proof/Laws/Encoding.lean ====
section
/-! SUPPORT. Fields of a command word: as bits, and as quotients and remainders of the word's number. -/

namespace Sys2Proof

/-- A field is read right when each of its bits is. -/
theorem bitsAt_eq_of_bits {n : Nat} (w : CmdWord) (lo : Nat) (x : BitVec n)
    (h : ∀ j, j < n → w.getLsbD (lo + j) = x.getLsbD j) : bitsAt w lo n = x := by
  apply BitVec.eq_of_getLsbD_eq
  intro j hj
  simp [bitsAt, hj, h j hj]

/-- A field of a word as a number. -/
theorem bitsAt_toNat (w : CmdWord) (lo n : Nat) : (bitsAt w lo n).toNat = w.toNat / 2 ^ lo % 2 ^ n := by
  simp [bitsAt, Nat.shiftRight_eq_div_pow]

/-- A must-be-zero field as a number. -/
theorem zeroAt_iff (w : CmdWord) (lo n : Nat) : zeroAt w lo n = true ↔ w.toNat / 2 ^ lo % 2 ^ n = 0 := by
  rw [← bitsAt_toNat]
  simp [zeroAt, ← BitVec.toNat_inj]

/-- Two fields side by side as a number. -/
theorem toNat_append_add {m n : Nat} (x : BitVec m) (y : BitVec n) :
    (x ++ y).toNat = x.toNat * 2 ^ n + y.toNat := by
  rw [BitVec.toNat_append, ← Nat.shiftLeft_add_eq_or_of_lt y.isLt, Nat.shiftLeft_eq]

/-- A command is accepted when its must-be-zero bits are 0 (R66, step 2). -/
@[simp] theorem acceptIf_ok (op : BitVec 4) (mbz : Bool) (i j : Instr) :
    acceptIf op mbz i = .ok j ↔ mbz = true ∧ i = j := by
  cases mbz <;> simp [acceptIf]

end Sys2Proof
end

