-- ==== Sys2Proof/Laws/Loader.lean ====
section
/-! SUPPORT. The calibration unpacker in the form its rules give it: nibbles side by side, bytes low first, the image byte
by byte (R73 to R81). -/

namespace Sys2Proof.Machine

/-- `B[3]` supplies bits 11:4 and the low nibble of `B[4]` bits 3:0 (R77). -/
theorem unpackH4_eq (b3 b4 : Byte) : unpackH4 b3 b4 = 0#4 ++ b3 ++ b4.extractLsb' 0 4 := by
  apply BitVec.eq_of_getLsbD_eq
  intro j hj
  simp only [unpackH4, BitVec.getLsbD_append]
  interval_cases j <;> simp

/-- `B[5]` supplies bits 11:4 and the high nibble of `B[4]` bits 3:0 (R78). -/
theorem unpackH5_eq (b4 b5 : Byte) : unpackH5 b4 b5 = 0#4 ++ b5 ++ b4.extractLsb' 4 4 := by
  apply BitVec.eq_of_getLsbD_eq
  intro j hj
  simp only [unpackH5, BitVec.getLsbD_append]
  interval_cases j <;> simp

/-- The image of a little-endian quantity is its two bytes, low byte first (R81). -/
theorem lowFirst_append (hi lo : Byte) : lowFirst (hi ++ lo) = [lo, hi] := by
  have h1 : (hi ++ lo).extractLsb' 0 8 = lo := by
    apply BitVec.eq_of_getLsbD_eq
    intro j hj
    simp only [BitVec.getLsbD_extractLsb', BitVec.getLsbD_append]
    interval_cases j <;> simp
  have h2 : (hi ++ lo).extractLsb' 8 8 = hi := by
    apply BitVec.eq_of_getLsbD_eq
    intro j hj
    simp only [BitVec.getLsbD_extractLsb', BitVec.getLsbD_append]
    interval_cases j <;> simp
  simp [lowFirst, h1, h2]

/-- The image of a 12-bit constant: its low byte, then its high nibble (R81). -/
theorem lowFirst_nibble (byte : Byte) (nibble : BitVec 4) :
    lowFirst (0#4 ++ byte ++ nibble) = [byte.extractLsb' 0 4 ++ nibble, 0#4 ++ byte.extractLsb' 4 4] := by
  have h1 : (0#4 ++ byte ++ nibble).extractLsb' 0 8 = byte.extractLsb' 0 4 ++ nibble := by
    apply BitVec.eq_of_getLsbD_eq
    intro j hj
    simp only [BitVec.getLsbD_extractLsb', BitVec.getLsbD_append]
    interval_cases j <;> simp
  have h2 : (0#4 ++ byte ++ nibble).extractLsb' 8 8 = 0#4 ++ byte.extractLsb' 4 4 := by
    apply BitVec.eq_of_getLsbD_eq
    intro j hj
    simp only [BitVec.getLsbD_extractLsb', BitVec.getLsbD_append]
    interval_cases j <;> simp
  simp only [lowFirst, h1, h2]

/-- H4 and H5 are never above 4095 (R16, R77, R78). -/
theorem nibble_range (byte : Byte) (nibble : BitVec 4) : (0#4 ++ byte ++ nibble).toNat ≤ 4095 := by
  have h1 := byte.isLt
  have h2 := nibble.isLt
  rw [BitVec.toNat_append, ← Nat.shiftLeft_add_eq_or_of_lt nibble.isLt, Nat.shiftLeft_eq, BitVec.toNat_append,
    ← Nat.shiftLeft_add_eq_or_of_lt byte.isLt]
  simp
  omega

/-- A byte of the part read after the 24-byte block. -/
theorem byteAt_tail (tp rest : List Byte) (k : Nat) (h : tp.length = 24) :
    byteAt (tp ++ rest) (24 + k) = byteAt rest k := by
  simp [byteAt, List.getElem?_append_right (by omega : tp.length ≤ 24 + k), h]

/-- A byte of the 24-byte block. -/
theorem byteAt_head (tp rest : List Byte) (k : Nat) (h : k < tp.length) : byteAt (tp ++ rest) k = byteAt tp k := by
  simp [byteAt, List.getElem?_append_left h]

/-- The 33-byte image of 32 bytes read (R81). -/
theorem hashImage_eq (tp : List Byte) (h1 b0 b1 b2 b3 b4 b5 b6 : Byte) (h : tp.length = 24) :
    hashImage (tp ++ [h1, b0, b1, b2, b3, b4, b5, b6])
      = tp ++ [h1, b0, b1, b2, b3.extractLsb' 0 4 ++ b4.extractLsb' 0 4, 0#4 ++ b3.extractLsb' 4 4,
          b5.extractLsb' 0 4 ++ b4.extractLsb' 4 4, 0#4 ++ b5.extractLsb' 4 4, b6] := by
  have e0 := byteAt_tail tp [h1, b0, b1, b2, b3, b4, b5, b6] 0 h
  have e1 := byteAt_tail tp [h1, b0, b1, b2, b3, b4, b5, b6] 1 h
  have e2 := byteAt_tail tp [h1, b0, b1, b2, b3, b4, b5, b6] 2 h
  have e3 := byteAt_tail tp [h1, b0, b1, b2, b3, b4, b5, b6] 3 h
  have e4 := byteAt_tail tp [h1, b0, b1, b2, b3, b4, b5, b6] 4 h
  have e5 := byteAt_tail tp [h1, b0, b1, b2, b3, b4, b5, b6] 5 h
  have e6 := byteAt_tail tp [h1, b0, b1, b2, b3, b4, b5, b6] 6 h
  have e7 := byteAt_tail tp [h1, b0, b1, b2, b3, b4, b5, b6] 7 h
  simp only [Nat.reduceAdd] at e0 e1 e2 e3 e4 e5 e6 e7
  have ht : (tp ++ [h1, b0, b1, b2, b3, b4, b5, b6]).take 24 = tp := by rw [← h, List.take_left]
  rw [hashImage, ht]
  simp only [humidityBytes, unpack, littleEndian, Nat.reduceAdd, e0, e1, e2, e3, e4, e5, e6, e7]
  simp [byteAt, unpackH4_eq, unpackH5_eq, lowFirst_append, lowFirst_nibble]

/-- The image of a little-endian field read at byte `k` (R73, R81). -/
theorem lowFirst_littleEndian (bytes : List Byte) (k : Nat) :
    lowFirst (littleEndian bytes k) = [byteAt bytes k, byteAt bytes (k + 1)] :=
  lowFirst_append _ _

/-- A list of 24 bytes is its bytes. -/
theorem eq_bytes_of_length {l : List Byte} (h : 24 ≤ l.length) :
    l.take 24 = [byteAt l 0, byteAt l 1, byteAt l 2, byteAt l 3, byteAt l 4, byteAt l 5, byteAt l 6, byteAt l 7,
      byteAt l 8, byteAt l 9, byteAt l 10, byteAt l 11, byteAt l 12, byteAt l 13, byteAt l 14, byteAt l 15,
      byteAt l 16, byteAt l 17, byteAt l 18, byteAt l 19, byteAt l 20, byteAt l 21, byteAt l 22, byteAt l 23] := by
  apply List.ext_getElem (by simpa using h)
  intro n h1 h2
  have hn : n < 24 := by simpa using h2
  have hl : n < l.length := by omega
  have hb : l[n] = byteAt l n := by simp [byteAt, hl]
  rw [List.getElem_take, hb]
  interval_cases n <;> simp

/-- What the registers hold after a commit is the image that was hashed (R73, R81, R82). -/
theorem registerImage_unpack {bytes : List Byte} (h : 24 ≤ bytes.length) :
    registerImage (unpack bytes) = hashImage bytes := by
  rw [hashImage, eq_bytes_of_length h]
  simp [registerImage, unpack, lowFirst_littleEndian]

end Sys2Proof.Machine
end

