-- ==== Sys2Proof/Laws/Invariants.lean ====
section
/-! SUPPORT. The parts of the invariants over lists: bytes wanted, the discipline of a trace, the requests of a well-formed
command, and what a commit leaves of the calibration registers. -/

namespace Sys2Proof.Machine

theorem bytesWanted_append (a b : List Request) : bytesWanted (a ++ b) = bytesWanted a + bytesWanted b := by
  induction a with
  | nil => simp [bytesWanted]
  | cons r a ih => cases r <;> simp [bytesWanted, ih, Nat.add_assoc]

/-- The discipline of two traces in a row: the second follows the last phase of the first. -/
theorem disciplined_append (prev : Option BusPhase) (xs ys : List BusPhase) :
    disciplined prev (xs ++ ys) = (disciplined prev xs && disciplined (xs.getLast?.or prev) ys) := by
  induction xs generalizing prev with
  | nil => simp [disciplined]
  | cons x xs ih =>
    simp only [List.cons_append, disciplined, ih, Bool.and_assoc]
    cases xs with
    | nil => simp
    | cons y ys => simp [List.getLast?_eq_getLast_of_ne_nil]

/-- A well-formed command asks only for permitted requests (R31, R43, R47 to R49, R61). -/
theorem ruledRequests_permitted (i : Instr) (hw : i.WellFormed = true) :
    ∀ r ∈ ruledRequests i, permittedRequest r = true := by
  cases i with
  | configure p f => revert p f; decide
  | start h t p m =>
    have h1 : ∀ h : BitVec 3, Instr.oversamplingDefined h = true → permittedRequest (.wr 0xF2 (0#5 ++ h)) = true := by
      decide
    have h2 : ∀ (t p : BitVec 3) (m : BitVec 2), Instr.oversamplingDefined t = true → Instr.oversamplingDefined p = true →
        Instr.modeDefined m = true → permittedRequest (.wr 0xF4 (t ++ p ++ m)) = true := by decide
    simp only [Instr.WellFormed, Bool.and_eq_true] at hw
    simp only [ruledRequests, List.mem_cons, List.not_mem_nil, or_false]
    rintro r (rfl | rfl)
    · exact h1 _ hw.1.1.1
    · exact h2 _ _ _ hw.1.1.2 hw.1.2 hw.2
  | _ => simp [ruledRequests, permittedRequest]

/-- Whatever came before, the first request of a command may come next. -/
theorem first_request_follows (i : Instr) (prev : Option BusPhase) :
    ∀ r ∈ (ruledRequests i).take 1, followsRule prev r = true := by
  cases i <;> simp [ruledRequests, followsRule]

/-- A commit of an accepted command, with exactly the bytes its rule reads, keeps the calibration registers in order. -/
theorem commit_keeps_calibration (i : Instr) (bytes : List Byte) (s : State) (hacc : Accepted i s)
    (hb : bytes.length = bytesWanted (ruledRequests i)) (hn : NibbleRange s) (hc : CalibrationOk s) :
    NibbleRange ((commandOf i).commit bytes s) ∧ CalibrationOk ((commandOf i).commit bytes s) := by
  cases i with
  | loadCal =>
    have hb' : 24 ≤ bytes.length := by rw [hb]; decide
    refine ⟨⟨?_, ?_⟩, fun _ => ?_, fun h => ?_⟩
    · show (unpackH4 _ _).toNat ≤ 4095
      rw [unpackH4_eq]
      exact nibble_range _ _
    · show (unpackH5 _ _).toNat ≤ 4095
      rw [unpackH5_eq]
      exact nibble_range _ _
    · show fnv1a (hashImage bytes) = fnv1a (registerImage (unpack bytes))
      rw [registerImage_unpack hb']
    · exact absurd (show true = false from h) (by decide)
  | configure p f =>
    have hv := hacc.2.1 rfl
    exact ⟨hn, hc.1, fun h => absurd (hv.symm.trans h) (by decide)⟩
  | start _ _ _ _ =>
    have hv := hacc.2.1 rfl
    exact ⟨hn, hc.1, fun h => absurd (hv.symm.trans h) (by decide)⟩
  | isBusy =>
    refine ⟨hn, hc.1, fun h => ?_⟩
    obtain ⟨h1, h2, h3⟩ := hc.2 h
    refine ⟨h1, h2, ?_⟩
    show seqAfterPoll s.seq _ = _
    rw [h3]
    rfl
  | _ => exact ⟨hn, hc⟩

end Sys2Proof.Machine
end

