-- ==== Sys2Proof/Laws/PerInstr.lean ====
section
/-! SUPPORT. Per command: the word the encoder writes is covered by the command's own row of the opcode table (R70). -/

set_option maxRecDepth 8000

namespace Sys2Proof.Laws.TableRow

/-- The opcode table has a row with the command's mnemonic that covers the command's word (R70). -/
def Statement (i : Instr) : Prop :=
  ∃ row ∈ opcodeTable, row.mnemonic = i.mnemonic ∧ row.covers (encode i) = true

theorem probe : Statement .probe := by unfold Statement; decide
theorem loadCal : Statement .loadCal := by unfold Statement; decide
theorem isBusy : Statement .isBusy := by unfold Statement; decide
theorem readSample : Statement .readSample := by unfold Statement; decide

theorem configure (period filter : BitVec 3) : Statement (.configure period filter) := by
  refine ⟨⟨"CONFIGURE", 0x3000000000000000#64, 0xFFFFFFFFFFFFFF03#64⟩, by decide, rfl, ?_⟩
  rw [OpcodeRow.covers, beq_iff_eq]
  apply BitVec.eq_of_getLsbD_eq
  intro j hj
  simp only [encode, BitVec.getLsbD_and, BitVec.getLsbD_append]
  interval_cases j <;> simp

theorem start (osrsH osrsT osrsP : BitVec 3) (mode : BitVec 2) : Statement (.start osrsH osrsT osrsP mode) := by
  refine ⟨⟨"START", 0x4000000000000000#64, 0xFFFFFFFFFFFFF800#64⟩, by decide, rfl, ?_⟩
  rw [OpcodeRow.covers, beq_iff_eq]
  apply BitVec.eq_of_getLsbD_eq
  intro j hj
  simp only [encode, BitVec.getLsbD_and, BitVec.getLsbD_append]
  interval_cases j <;> simp

theorem compT (adcT : BitVec 20) : Statement (.compT adcT) := by
  refine ⟨⟨"COMP_T", 0x8000000000000000#64, 0xFFF00000FFFFFFFF#64⟩, by decide, rfl, ?_⟩
  rw [OpcodeRow.covers, beq_iff_eq]
  apply BitVec.eq_of_getLsbD_eq
  intro j hj
  simp only [encode, BitVec.getLsbD_and, BitVec.getLsbD_append]
  interval_cases j <;> simp

theorem compP (adcP : BitVec 20) (tFine : BitVec 32) : Statement (.compP adcP tFine) := by
  refine ⟨⟨"COMP_P", 0x9000000000000000#64, 0xFFF0000000000000#64⟩, by decide, rfl, ?_⟩
  rw [OpcodeRow.covers, beq_iff_eq]
  apply BitVec.eq_of_getLsbD_eq
  intro j hj
  simp only [encode, BitVec.getLsbD_and, BitVec.getLsbD_append]
  interval_cases j <;> simp

theorem compH (adcH : BitVec 16) (tFine : BitVec 32) : Statement (.compH adcH tFine) := by
  refine ⟨⟨"COMP_H", 0xA000000000000000#64, 0xFFFF000000000000#64⟩, by decide, rfl, ?_⟩
  rw [OpcodeRow.covers, beq_iff_eq]
  apply BitVec.eq_of_getLsbD_eq
  intro j hj
  simp only [encode, BitVec.getLsbD_and, BitVec.getLsbD_append]
  interval_cases j <;> simp

end Sys2Proof.Laws.TableRow
end

