-- ==== Sys2Proof/Tests/Slice0.lean ====
section
/-! SUPPORT. The model's own tests. Every expected value is copied from 95_test_vectors.md (the vector's id stands beside
the test) or is a rule's own example; the witness theorems show, for each obligation with hypotheses, a concrete state and
operands that meet them. -/

set_option maxRecDepth 4000

namespace Sys2Proof.Tests

open Sys2Proof.Machine

/-! ### Helpers -/

/-- Registers 0x88..0x9F of device A (V-CAL1). -/
def tpA : List Byte :=
  [0x70, 0x6B, 0x43, 0x67, 0x18, 0xFC, 0x00, 0x7D, 0x43, 0xD6, 0xD0, 0x0B, 0x27, 0x0B, 0x8C, 0x00, 0xF9, 0xFF, 0x8C,
    0x3C, 0xF8, 0xC6, 0x70, 0x17]

/-- The constants of device A, as numbers (V-CAL1). -/
def deviceA : Calibration :=
  { T1 := 27504, T2 := 26435, T3 := BitVec.ofInt 16 (-1000)
    P1 := 32000, P2 := BitVec.ofInt 16 (-10685), P3 := 3024, P4 := 2855, P5 := 140, P6 := BitVec.ofInt 16 (-7)
    P7 := 15500, P8 := BitVec.ofInt 16 (-14600), P9 := 6000
    H1 := 75, H2 := 367, H3 := 0, H4 := 301, H5 := 50, H6 := 30 }

/-- Device A's answers to LOAD_CAL (V-CAL1). -/
def answersA : List Answer :=
  [⟨true, []⟩, ⟨true, tpA⟩, ⟨true, []⟩, ⟨true, [0x4B]⟩, ⟨true, []⟩,
    ⟨true, [0x6F, 0x01, 0x00, 0x12, 0x2D, 0x03, 0x1E]⟩]

/-- Calibration not loaded, with a transport that answers as given. -/
def fresh (answers : List Answer) : State := { State.reset with bus := answersThen answers [] }

/-- Device A loaded, in a given sequencer state, with a transport that answers as given. -/
def loaded (q : SeqState) (answers : List Answer) : State :=
  { State.reset with
    cal := deviceA
    calValid := true
    identity := 0x15E88773
    seq := q
    bus := answersThen answers [] }

/-- The outcome is a next state that `p` holds of. -/
def nextHas (o : Host.Outcome State Fault Refusal) (p : State → Bool) : Bool :=
  match o with
  | .next t => p t
  | .fault _ => false
  | .refused _ => false

/-- The outcome is a next state with nothing in flight, this one response and this sequencer state. -/
def responds (o : Host.Outcome State Fault Refusal) (r : Response) (q : SeqState) : Bool :=
  nextHas o fun t => decide (t.flight = none ∧ t.responses = [r] ∧ t.seq = q)

/-- The outcome is a next state with this bus trace. -/
def traces (o : Host.Outcome State Fault Refusal) (ps : List BusPhase) : Bool :=
  nextHas o fun t => decide (t.trace = ps)

/-! ### Well-formedness (R61): each check refuses an ill-formed command -/

theorem test_wellFormed_refuses_mode_2 : (Instr.start 1 1 1 2).WellFormed = false := by decide
theorem test_wellFormed_refuses_filter_5 : (Instr.configure 0 5).WellFormed = false := by decide
theorem test_wellFormed_refuses_osrs_h_6 : (Instr.start 6 1 1 1).WellFormed = false := by decide
theorem test_wellFormed_refuses_osrs_t_6 : (Instr.start 1 6 1 1).WellFormed = false := by decide
theorem test_wellFormed_refuses_osrs_p_6 : (Instr.start 1 1 6 1).WellFormed = false := by decide
theorem test_wellFormed_accepts_largest_start : (Instr.start 5 5 5 3).WellFormed = true := by decide
theorem test_wellFormed_accepts_largest_configure : (Instr.configure 7 4).WellFormed = true := by decide

/-! ### Decoding: words written out from R54 to R56 -/

/-- `op` 0x1, all other bits 0. -/
theorem test_decode_probe : decode 0x1000000000000000#64 = .ok .probe := rfl
theorem test_decode_loadCal : decode 0x2000000000000000#64 = .ok .loadCal := rfl
/-- V-DEC13: bits 7:5 are 101, bits 4:2 are 100. -/
theorem test_decode_configure : decode 0x30000000000000B0#64 = .ok (.configure 5 4) := rfl
/-- V-DEC18: 0x1C5 = 0b001_110_001_01, four fields that differ. -/
theorem test_decode_start : decode 0x40000000000001C5#64 = .ok (.start 1 6 1 1) := rfl
/-- V-DEC19: 0x139 = 0b001_001_110_01. -/
theorem test_decode_start_pressure : decode 0x4000000000000139#64 = .ok (.start 1 1 6 1) := rfl
theorem test_decode_isBusy : decode 0x5000000000000000#64 = .ok .isBusy := rfl
theorem test_decode_readSample : decode 0x6000000000000000#64 = .ok .readSample := rfl
/-- V-DEC20. -/
theorem test_decode_compT : decode 0x8007EED000000000#64 = .ok (.compT 519888) := rfl
/-- V-DEC22. -/
theorem test_decode_compP : decode 0x900655ACFFFC88C5#64 = .ok (.compP 415148 (BitVec.ofInt 32 (-227131))) := rfl
/-- V-DEC23. -/
theorem test_decode_compH : decode 0xA000FFFF80000000#64 = .ok (.compH 65535 0x80000000) := rfl

/-- V-DEC1 to V-DEC12: the illegal words. -/
theorem test_decode_illegal :
    ([0x0000000000000000, 0x7000000000000000, 0xB000000000000000, 0xFFFFFFFFFFFFFFFF, 0x1000000000000001,
      0x1010000000000000, 0x3000000000000001, 0x3000000000000100, 0x4000000000000800, 0x8007EED000000001,
      0xA0016E1F0001F5A6, 0x9010000000000000] : List CmdWord).all (fun w => (decode w).toBool == false) = true := rfl

/-- R68's example: START in Forced mode, all oversamplings 1x. -/
theorem test_encode_start : encode (.start 1 1 1 1) = 0x4000000000000125#64 := by decide
/-- V-DEC24: the largest legal START word. -/
theorem test_encode_start_largest : encode (.start 5 5 5 3) = 0x40000000000005B7#64 := by decide
/-- V-DEC22, the other direction. -/
theorem test_encode_compP : encode (.compP 415148 (BitVec.ofInt 32 (-227131))) = 0x900655ACFFFC88C5#64 := by decide
/-- The table word of V-DEC20 as the host numbers it. -/
theorem test_decodeTableWord : decodeTableWord 64 0x8007EED000000000 = some (.compT 519888) := rfl
theorem test_decodeTableWord_illegal : decodeTableWord 64 0x7000000000000000 = none := rfl

/-! ### The commands -/

/-- V-SEQ1. -/
theorem test_probe_present :
    responds (exec .probe (fresh [⟨true, []⟩, ⟨true, [0x60]⟩])) ⟨.ok, false, 1⟩ .uninitialized = true := by decide
/-- V-SEQ2. -/
theorem test_probe_other_chip :
    responds (exec .probe (loaded .measuring [⟨true, []⟩, ⟨true, [0x58]⟩])) ⟨.ok, false, 0⟩ .measuring = true := by decide

/-- V-CAL1: the 18 constants and the identity of device A. -/
theorem test_loadCal_deviceA :
    unpack (tpA ++ [0x4B, 0x6F, 0x01, 0x00, 0x12, 0x2D, 0x03, 0x1E]) = deviceA ∧
    responds (exec .loadCal (fresh answersA)) ⟨.ok, false, 0x15E88773⟩ .uninitialized = true := by decide
/-- V-CAL7: 23 bytes answered to RD(24). -/
theorem test_loadCal_short_read :
    responds (exec .loadCal (fresh [⟨true, []⟩, ⟨true, tpA.take 23⟩])) ⟨.bus, false, 0⟩ .uninitialized = true := by decide
/-- S2 and V-CAL4: the nibbles of the shared byte. -/
theorem test_unpack_shared_nibbles : unpackH4 0x04 0xF5 = 0x45 ∧ unpackH5 0xF5 0x06 = 0x6F := by decide
/-- V-CAL5: no sign extension from bit 11. -/
theorem test_unpack_no_sign_extension : (unpackH4 0xFF 0x0F).toInt = 4095 ∧ (unpackH5 0xF0 0xFF).toInt = 4095 := by decide
/-- 95_test_vectors.md 2.3: the hash of "foobar" and of nothing. -/
theorem test_fnv1a : fnv1a [0x66, 0x6F, 0x6F, 0x62, 0x61, 0x72] = 0xBF9CF968 ∧ fnv1a [] = 0x811C9DC5 := by decide

/-- V-SEQ5, with its trace. -/
theorem test_configure :
    responds (exec (.configure 5 4) (loaded .uninitialized [⟨true, []⟩])) ⟨.ok, false, 0⟩ .configured = true ∧
    traces (exec (.configure 5 4) (loaded .uninitialized [⟨true, []⟩])) [⟨.wr 0xF5 0xB0, some ⟨true, []⟩⟩] = true := by
  decide
/-- V-SEQ7. -/
theorem test_configure_fails :
    responds (exec (.configure 7 4) (loaded .uninitialized [⟨false, []⟩])) ⟨.bus, false, 0⟩ .uninitialized = true := by
  decide

/-- V-SEQ9, with its trace: 0xF2 before 0xF4. -/
theorem test_start :
    responds (exec (.start 1 2 5 3) (loaded .idle [⟨true, []⟩, ⟨true, []⟩])) ⟨.ok, false, 0⟩ .measuring = true ∧
    traces (exec (.start 1 2 5 3) (loaded .idle [⟨true, []⟩, ⟨true, []⟩]))
      [⟨.wr 0xF2 0x01, some ⟨true, []⟩⟩, ⟨.wr 0xF4 0x57, some ⟨true, []⟩⟩] = true := by decide
/-- V-SEQ19. -/
theorem test_start_partial :
    responds (exec (.start 1 1 1 1) (loaded .configured [⟨true, []⟩, ⟨false, []⟩])) ⟨.busPartial, false, 0⟩ .configured
      = true := by decide

/-- V-SEQ13. -/
theorem test_isBusy_idle_busy :
    responds (exec .isBusy (loaded .idle [⟨true, []⟩, ⟨true, [0x09]⟩])) ⟨.ok, false, 1⟩ .measuring = true := by decide
/-- V-SEQ14. -/
theorem test_isBusy_other_bits :
    responds (exec .isBusy (loaded .measuring [⟨true, []⟩, ⟨true, [0xF6]⟩])) ⟨.ok, false, 0⟩ .idle = true := by decide

/-- V-RS1. -/
theorem test_readSample :
    responds (exec .readSample (fresh [⟨true, []⟩, ⟨true, [0x7E, 0xED, 0x00]⟩, ⟨true, []⟩, ⟨true, [0x65, 0x5A, 0xC0]⟩,
      ⟨true, []⟩, ⟨true, [0x6E, 0x1F]⟩])) ⟨.ok, false, 0x006E1F655AC7EED0⟩ .uninitialized = true := by decide
/-- V-RS6: a 2-byte answer to RD(3). -/
theorem test_readSample_short :
    responds (exec .readSample (fresh [⟨true, []⟩, ⟨true, [0x7E, 0xED]⟩])) ⟨.bus, false, 0⟩ .uninitialized = true := by
  decide

/-- V-T5: a negative temperature. -/
theorem test_compT_negative :
    responds (exec (.compT 300000) (loaded .idle [])) ⟨.ok, false, 0xFFFC88C5FFFFEEAC⟩ .idle = true := by decide
/-- V-T9: the square overflows. -/
theorem test_compT_overflow :
    responds (exec (.compT 741456) { loaded .idle [] with cal := { Calibration.zero with T3 := 1 } })
      ⟨.ok, true, 0xFFFFFFE0FFFFFFFF⟩ .idle = true := by decide

/-- V-P5. -/
theorem test_compP :
    responds (exec (.compP 415148 (BitVec.ofInt 32 (-227131))) (loaded .idle [])) ⟨.ok, false, 26356495⟩ .idle = true := by
  decide
/-- V-P12: `P1` read as signed, `q * P6` overflows. -/
theorem test_compP_overflow :
    responds (exec (.compP 415148 2147483647) { loaded .idle [] with cal := { deviceA with P1 := 0x8E7D } })
      ⟨.ok, true, 4113012290⟩ .idle = true := by decide
/-- V-P2: the same bytes under the other reading of P1 (90_conflicts.md C2). -/
theorem test_compensateP_unsigned_reading :
    compensateP 64 true { deviceA with P1 := 0x8E7D } 415148 128422 = ⟨25767233, false⟩ := by decide
/-- V-P1: and under the default reading. -/
theorem test_compensateP_signed_reading :
    (compensateP 64 false { deviceA with P1 := 0x8E7D } 415148 128422).val = -30501841 := by decide

/-- V-H5. -/
theorem test_compH :
    responds (exec (.compH 28191 (BitVec.ofInt 32 (-227131))) (loaded .idle [])) ⟨.ok, false, 48495⟩ .idle = true := by
  decide
/-- V-H8: `t_fine - 76800` wraps. -/
theorem test_compH_overflow :
    responds (exec (.compH 28191 0x80000000) (loaded .idle [])) ⟨.ok, true, 50374⟩ .idle = true := by decide
/-- The clamp boundary of 95_test_vectors.md 2.7. -/
theorem test_clampH :
    clampH (-1) / 2 ^ 12 = 0 ∧ clampH 4095 / 2 ^ 12 = 0 ∧ clampH 4096 / 2 ^ 12 = 1 ∧ clampH 419430399 / 2 ^ 12 = 102399 ∧
    clampH 419430400 / 2 ^ 12 = 102400 ∧ clampH 419430401 / 2 ^ 12 = 102400 := by decide

/-- The examples of R108 and R109. -/
theorem test_shift_and_division :
    (Fx.lit (-1)).sar 1 = ⟨-1, false⟩ ∧ (Fx.lit (-6076000)).sar 14 = ⟨-371, false⟩ ∧
    (Fx.lit 7).quot 64 (Fx.lit (-2)) = ⟨-3, false⟩ ∧ (Fx.lit (-7)).quot 64 (Fx.lit 2) = ⟨-3, false⟩ := by decide

/-! ### Order of tests (95_test_vectors.md 2.2) and the port -/

/-- V-PRI1, V-PRI2, V-PRI3. -/
theorem test_priority_of_start :
    responds (exec (.start 1 1 1 2) (fresh [])) ⟨.operand, false, 0⟩ .uninitialized = true ∧
    responds (exec (.start 1 1 1 1) (fresh [])) ⟨.noCal, false, 0⟩ .uninitialized = true ∧
    responds (exec (.start 1 1 1 1) (loaded .uninitialized [])) ⟨.badState, false, 0⟩ .uninitialized = true := by decide
/-- V-PRI4: an illegal word, before every other test. -/
theorem test_priority_illegal :
    responds (step (present (fresh []) 0x4000000000000926#64)) ⟨.illegal, false, 0⟩ .uninitialized = true := by decide
/-- R158: the transport is silent after the first phase, then answers. -/
theorem test_silence_then_answer :
    traces (exec .probe { fresh [⟨true, []⟩] with seq := .idle }) [⟨.sel 0xD0, some ⟨true, []⟩⟩] = true ∧
    responds (step { fresh [⟨true, [0x60]⟩] with flight := some ⟨.probe, 1, []⟩ }) ⟨.ok, false, 1⟩ .uninitialized
      = true := by decide
/-- R148: reset abandons a command in flight, with no response. -/
theorem test_reset_in_flight :
    (nextHas (step { loaded .idle [] with host := [.reset], flight := some ⟨.probe, 1, []⟩ }) fun t =>
      decide (t.responses = [] ∧ t.trace = [⟨.rd 1, none⟩] ∧ t.calValid = false ∧ t.seq = .uninitialized)) = true := by
  decide
/-- Program 1, step 8, through the port: the next step runs the word placed by withFetchWord. -/
theorem test_withFetchWord :
    responds (step ((loaded .idle []).withFetchWord 64 0x8007EED000000000)) ⟨.ok, false, 0x0001F5A6000009CC⟩ .idle
      = true := by decide

/-! ### Witnesses: states and operands that meet the hypotheses of the obligations, clause by clause -/

/-- EncodeInvertsDecode; the first clause of DecodeFollowsOpcodeTable: a word that decodes. -/
theorem witness_EncodeInvertsDecode : decode 0x40000000000005B7#64 = .ok (.start 5 5 5 3) := rfl

/-- DecodeFollowsOpcodeTable: a word a row covers, and a word that no row covers. -/
theorem witness_DecodeFollowsOpcodeTable :
    (opcodeTable.filter fun row => row.covers 0x300000000000000C#64).map (fun row => row.mnemonic) = ["CONFIGURE"] ∧
    (opcodeTable.filter fun row => row.covers 0x7000000000000000#64) = [] := by decide

/-- IllegalWordsRefusedWithoutEffect: a word for each of the ways to be illegal, presented on a free port. -/
theorem witness_IllegalWordsRefusedWithoutEffect :
    (0x7000000000000000#64).extractLsb' 60 4 = 7 ∧
    ((0x6000000000000001#64).extractLsb' 60 4 = 6 ∧ (0x6000000000000001#64).extractLsb' 0 60 ≠ 0#60) ∧
    ((0x3000000000000100#64).extractLsb' 60 4 = 3 ∧ (0x3000000000000100#64).extractLsb' 8 52 ≠ 0#52) ∧
    ((0x3000000000000002#64).extractLsb' 60 4 = 3 ∧ (0x3000000000000002#64).extractLsb' 0 2 ≠ 0#2) ∧
    ((0x4000000000000800#64).extractLsb' 60 4 = 4 ∧ (0x4000000000000800#64).extractLsb' 11 49 ≠ 0#49) ∧
    ((0x8000000000000001#64).extractLsb' 60 4 = 8 ∧ (0x8000000000000001#64).extractLsb' 0 32 ≠ 0#32) ∧
    ((0x9010000000000000#64).extractLsb' 60 4 = 9 ∧ (0x9010000000000000#64).extractLsb' 52 8 ≠ 0#8) ∧
    ((0xA001000000000000#64).extractLsb' 60 4 = 10 ∧ (0xA001000000000000#64).extractLsb' 48 12 ≠ 0#12) ∧
    (present State.reset 0#64).host = .command 0#64 :: [] ∧ (present State.reset 0#64).flight = none := by decide

/-- ReservedCodesRefusedWithoutEffect: the codes at both ends of each range. -/
theorem witness_ReservedCodesRefusedWithoutEffect :
    (5#3).toNat ∈ [5, 6, 7] ∧ (7#3).toNat ∈ [5, 6, 7] ∧ (6#3).toNat ∈ [6, 7] ∧ (7#3).toNat ∈ [6, 7] ∧ (4#3).toNat ≤ 4 := by
  decide

/-- StepRunsTheDecodedCommand: a presented word, and a table word. -/
theorem witness_StepRunsTheDecodedCommand :
    (present State.reset 0x5000000000000000#64).host = .command 0x5000000000000000#64 :: [] ∧
    (present State.reset 0x5000000000000000#64).flight = none ∧ decode 0x5000000000000000#64 = .ok .isBusy ∧
    decodeTableWord 64 0x5000000000000000 = some .isBusy := ⟨rfl, rfl, rfl, rfl⟩

/-- OneResponsePerAcceptedWord: a word presented on a free port, and a command in flight. -/
theorem witness_OneResponsePerAcceptedWord :
    (¬ ResetNext (present State.reset 0#64) ∧ (present State.reset 0#64).host ≠ []) ∧
    (¬ ResetNext { State.reset with flight := some ⟨.probe, 1, []⟩ } ∧
      ({ State.reset with flight := some ⟨.probe, 1, []⟩ } : State).flight ≠ none) := by
  simp [ResetNext, present, State.reset]

/-- IdleBlockDoesNothing. -/
theorem witness_IdleBlockDoesNothing : State.reset.host = [] ∧ State.reset.flight = none := ⟨rfl, rfl⟩

/-- FirstFailedPhaseEndsCommand: START's second write fails. -/
theorem witness_FirstFailedPhaseEndsCommand :
    Accepted (.start 1 1 1 1) (loaded .configured [⟨true, []⟩, ⟨false, []⟩]) ∧
    ruledRequests (.start 1 1 1 1) = [.wr 0xF2 1] ++ .wr 0xF4 0x25 :: [] ∧ AllSucceed [.wr 0xF2 1] [⟨true, []⟩] ∧
    (⟨false, []⟩ : Answer).succeeds (.wr 0xF4 0x25) = false ∧
    (loaded .configured [⟨true, []⟩, ⟨false, []⟩]).bus = answersThen ([⟨true, []⟩] ++ [⟨false, []⟩]) [] :=
  ⟨⟨rfl, fun _ => rfl, rfl⟩, by decide, ⟨rfl, trivial⟩, rfl, rfl⟩

/-- AnsweredCommandCompletes. -/
theorem witness_AnsweredCommandCompletes : answersA.length = 6 ∧ (fresh answersA).bus = answersThen answersA [] :=
  ⟨rfl, rfl⟩

/-- A transport that answers PROBE's select, is silent for the rest of the step, and then answers the read. -/
def slowProbe : State := { State.reset with bus := answersThen [⟨true, []⟩] (.silent :: answersThen [⟨true, [0x60]⟩] []) }

/-- SilenceOnlyDelaysACommand. -/
theorem witness_SilenceOnlyDelaysACommand :
    ¬ ResetNext slowProbe ∧ slowProbe.bus = answersThen [⟨true, []⟩] (.silent :: answersThen [⟨true, [0x60]⟩] []) ∧
    nextHas (exec .probe slowProbe) (fun t => decide (t.flight ≠ none)) = true :=
  ⟨by simp [ResetNext, slowProbe, State.reset], rfl, by decide⟩

/-- TraceAndResponsesOnlyGrow, StatusOutputsChangeOnlyAtResponse: a step that changes the status outputs. -/
theorem witness_StatusOutputsChangeOnlyAtResponse :
    nextHas (step (present (loaded .uninitialized [⟨true, []⟩]) 0x30000000000000B0#64)) (fun t =>
      decide (t.statusOutputs ≠ (loaded .uninitialized []).statusOutputs)) = true := by decide

/-- ResetGivesResetValues, ResetAbandonsTheCommandInFlight: with a command in flight and without. -/
theorem witness_ResetAbandonsTheCommandInFlight :
    (ruledRequests .loadCal)[3]? = some (.rd 1) ∧ State.reset.flight = none ∧
    ({ State.reset with host := [.reset], flight := some ⟨.loadCal, 3, tpA⟩ } : State).host = .reset :: [] :=
  ⟨rfl, rfl, rfl⟩

/-- ChecksInOrder: one command for each of the three checks. -/
theorem witness_ChecksInOrder :
    (Instr.configure 0 5).WellFormed = false ∧
    ((Instr.configure 0 4).WellFormed = true ∧ needsCal (.configure 0 4) = true ∧ (fresh []).calValid = false) ∧
    ((Instr.start 5 5 5 3).WellFormed = true ∧ (loaded .measuring []).calValid = true ∧
      admitted (.start 5 5 5 3) (loaded .measuring []).seq = false) := by decide

/-- UncalibratedCommandsRefused, with operands at the ends of their ranges. -/
theorem witness_UncalibratedCommandsRefused :
    (fresh []).calValid = false ∧ (4#3).toNat ≤ 4 ∧ (5#3).toNat ≤ 5 ∧ (3#2) ≠ 2 := by decide

/-- WrongStateRefused: CONFIGURE outside Uninitialized, START outside Configured and Idle. -/
theorem witness_WrongStateRefused :
    (loaded .measuring []).calValid = true ∧ (loaded .measuring []).seq ≠ .uninitialized ∧
    (loaded .measuring []).seq ≠ .configured ∧ (loaded .measuring []).seq ≠ .idle := by decide

/-- NonOkCompletionIsPrecise: a step that ends with a status other than `ST_OK`, and one that leaves a command in flight. -/
theorem witness_NonOkCompletionIsPrecise :
    (¬ ResetNext (present (fresh []) 0x8007EED000000000#64) ∧
      responds (step (present (fresh []) 0x8007EED000000000#64)) ⟨.noCal, false, 0⟩ .uninitialized = true) ∧
    nextHas (step (present (fresh [⟨true, []⟩]) 0x1000000000000000#64)) (fun t => decide (t.flight ≠ none)) = true :=
  ⟨⟨by simp [ResetNext, present], by decide⟩, by decide⟩

/-- StatusesOfEachCommand, ResponsePayloadLayout: START with every status it can have but `ST_ILLEGAL`. -/
theorem witness_StatusesOfEachCommand :
    responds (exec (.start 1 1 1 1) (loaded .idle [⟨true, []⟩, ⟨true, []⟩])) ⟨.ok, false, 0⟩ .measuring = true ∧
    responds (exec (.start 1 1 1 1) (loaded .idle [⟨false, []⟩])) ⟨.bus, false, 0⟩ .idle = true ∧
    responds (exec (.start 1 1 1 1) (loaded .idle [⟨true, []⟩, ⟨false, []⟩])) ⟨.busPartial, false, 0⟩ .idle = true ∧
    responds (exec (.start 1 1 1 1) (fresh [])) ⟨.noCal, false, 0⟩ .uninitialized = true ∧
    responds (exec (.start 1 1 1 1) (loaded .measuring [])) ⟨.badState, false, 0⟩ .measuring = true ∧
    responds (exec (.start 1 1 1 2) (loaded .idle [])) ⟨.operand, false, 0⟩ .idle = true := by decide

/-- ProbeAnswersPresence, IsBusyReportsAndMovesSeq: the three shapes of the answers. -/
theorem witness_ProbeAnswersPresence :
    (fresh [⟨true, [1]⟩, ⟨true, [0x60]⟩]).bus = .answer ⟨true, [1]⟩ :: .answer ⟨true, [0x60]⟩ :: [] ∧
    ((⟨false, []⟩ : Answer).ok = false ∧ (fresh [⟨false, []⟩]).bus = .answer ⟨false, []⟩ :: []) ∧
    ((⟨true, [1, 2]⟩ : Answer).bytes.length ≠ 1 ∧
      (fresh [⟨true, []⟩, ⟨true, [1, 2]⟩]).bus = .answer ⟨true, []⟩ :: .answer ⟨true, [1, 2]⟩ :: []) := by decide

/-- ConfigureWritesFilterAndPeriod: each of its checks failing, and the write. -/
theorem witness_ConfigureWritesFilterAndPeriod :
    4 < (5#3).toNat ∧ (4#3).toNat ≤ 4 ∧ (fresh []).calValid = false ∧
    ((loaded .idle []).calValid = true ∧ (loaded .idle []).seq ≠ .uninitialized) ∧
    ((loaded .uninitialized [⟨true, []⟩]).seq = .uninitialized ∧
      (loaded .uninitialized [⟨true, []⟩]).bus = .answer ⟨true, []⟩ :: []) := by decide

/-- StartWritesHumidityFirst: each of its checks failing, and both writes. -/
theorem witness_StartWritesHumidityFirst :
    ¬ ((2#2) ≠ 2 ∧ (5#3).toNat ≤ 5) ∧ ((3#2) ≠ 2 ∧ (5#3).toNat ≤ 5) ∧ (fresh []).calValid = false ∧
    ((loaded .measuring []).seq ≠ .configured ∧ (loaded .measuring []).seq ≠ .idle) ∧
    (loaded .idle [⟨true, []⟩, ⟨false, []⟩]).bus = .answer ⟨true, []⟩ :: .answer ⟨false, []⟩ :: [] := by decide

/-- ReadSampleAssemblesBigEndian: the answers of V-RS3, and a response (V-RS6). -/
theorem witness_ReadSampleAssemblesBigEndian :
    (fresh [⟨true, []⟩, ⟨true, [0xFF, 0xFF, 0xFF]⟩, ⟨true, []⟩, ⟨true, [0xFF, 0xFF, 0xFF]⟩, ⟨true, []⟩,
        ⟨true, [0xFF, 0xFF]⟩]).bus
      = .answer ⟨true, []⟩ :: .answer ⟨true, [0xFF, 0xFF, 0xFF]⟩ :: .answer ⟨true, []⟩
        :: .answer ⟨true, [0xFF, 0xFF, 0xFF]⟩ :: .answer ⟨true, []⟩ :: .answer ⟨true, [0xFF, 0xFF]⟩ :: [] ∧
    responds (exec .readSample (fresh [⟨true, []⟩, ⟨true, [0x7E, 0xED]⟩])) ⟨.bus, false, 0⟩ .uninitialized = true :=
  ⟨rfl, by decide⟩

/-- SeqMovesAsTabled: a refused and a successful START. -/
theorem witness_SeqMovesAsTabled :
    ((Instr.start 1 1 1 1).WellFormed = true ∧ (loaded .measuring []).calValid = true ∧
      (loaded .measuring []).seq = .measuring) ∧
    responds (exec (.start 1 1 1 1) (loaded .measuring [])) ⟨.badState, false, 0⟩ .measuring = true ∧
    responds (exec (.start 1 1 1 1) (loaded .configured [⟨true, []⟩, ⟨true, []⟩])) ⟨.ok, false, 0⟩ .measuring = true := by
  decide

/-- SeqEdgesOfAStep: a command in flight that the block accepted, and the step that ends it. -/
theorem witness_SeqEdgesOfAStep :
    FlightOk { loaded .idle [⟨true, []⟩] with flight := some ⟨.start 1 1 1 1, 1, []⟩ } ∧
    ¬ ResetNext { loaded .idle [⟨true, []⟩] with flight := some ⟨.start 1 1 1 1, 1, []⟩ } ∧
    responds (step { loaded .idle [⟨true, []⟩] with flight := some ⟨.start 1 1 1 1, 1, []⟩ }) ⟨.ok, false, 0⟩ .measuring
      = true :=
  ⟨⟨⟨rfl, fun _ => rfl, rfl⟩, by decide, rfl⟩, by simp [ResetNext, loaded, State.reset], by decide⟩

/-- LoadCalPublishesConstantsAndIdentity, LoadCalIsIdempotent: device A's answers. -/
theorem witness_LoadCalPublishesConstantsAndIdentity :
    tpA.length = 24 ∧ AllSucceed [.sel 0x88, .rd 24, .sel 0xA1, .rd 1, .sel 0xE1, .rd 7] answersA ∧
    (fresh answersA).bus = answersThen answersA [] := ⟨rfl, by simp [AllSucceed, answersA, Answer.succeeds, tpA], rfl⟩

/-- FailedLoadCalPublishesNothing: the second read's RD fails by its byte count. -/
theorem witness_FailedLoadCalPublishesNothing :
    ([.sel 0x88, .rd 24, .sel 0xA1, .rd 1, .sel 0xE1, .rd 7] : List Request)
      = [.sel 0x88, .rd 24, .sel 0xA1] ++ .rd 1 :: [.sel 0xE1, .rd 7] ∧
    AllSucceed [.sel 0x88, .rd 24, .sel 0xA1] (answersA.take 3) ∧ (⟨true, []⟩ : Answer).succeeds (.rd 1) = false ∧
    (fresh (answersA.take 3 ++ [⟨true, []⟩])).bus = answersThen (answersA.take 3 ++ [⟨true, []⟩]) [] :=
  ⟨rfl, by simp [AllSucceed, answersA, Answer.succeeds, tpA], rfl, rfl⟩

/-- OnlyLoadCalWritesCalibration: a step that writes the registers. -/
theorem witness_OnlyLoadCalWritesCalibration :
    ¬ ResetNext (present (fresh answersA) 0x2000000000000000#64) ∧
    nextHas (step (present (fresh answersA) 0x2000000000000000#64)) (fun t => decide (t.cal = deviceA)) = true :=
  ⟨by simp [ResetNext, present], by decide⟩

/-- IdentitySeesEverySingleByte, ImageDeterminesTheBytesRead. -/
theorem witness_IdentitySeesEverySingleByte :
    (0x7D : Byte) ≠ 0x00 ∧ (tpA ++ [0x4B, 0x6F, 0x01, 0x00, 0x12, 0x2D, 0x03, 0x1E]).length = 32 := by decide

/-- CompTEqualsItsDatapath, CompPEqualsItsDatapath, CompHEqualsItsDatapath, CompensationDependsOnCalOnly. -/
theorem witness_CompEqualsItsDatapath :
    (loaded .uninitialized []).calValid = true ∧ (loaded .idle []).calValid = true ∧
    (loaded .idle []).cal = (loaded .uninitialized []).cal := ⟨rfl, rfl, rfl⟩

/-- CompTExactWithoutOverflow, CompPExactWithoutOverflow, CompHExactWithoutOverflow, WiderDatapathsAgreeWithoutOverflow. -/
theorem witness_ExactWithoutOverflow :
    (compensateT 32 deviceA 519888).temp.ovf = false ∧ (compensateP 64 false deviceA 415148 128422).ovf = false ∧
    (compensateP 64 true deviceA 415148 128422).ovf = false ∧ (compensateH 32 deviceA 28191 128422).ovf = false := by decide

/-- TemperatureIsScaledFineTemperature (V-T1). -/
theorem witness_TemperatureIsScaledFineTemperature :
    responds (exec (.compT 519888) (loaded .idle [])) ⟨.ok, false, 0x0001F5A6000009CC⟩ .idle = true := by decide

/-- TemperatureRangesAndOverflowSites: both sides of the square's boundary (V-T8, V-T9), and an overflowing `m1` (V-T7). -/
theorem witness_TemperatureRangesAndOverflowSites :
    (compensateT 32 { Calibration.zero with T3 := 1 } 741440).sq.ovf = false ∧
    (compensateT 32 { Calibration.zero with T3 := 1 } 741456).sq.ovf = true ∧
    (compensateT 32 { Calibration.zero with T2 := 32767 } 1048575).m1.ovf = true := by decide

/-- ZeroConstantsGiveZeroTemperature: its hypotheses, and both sides of the square's boundary (46340² fits, 46341² does
not, by R114), where `ovf` above it is the model's choice (log entry 18). -/
theorem witness_ZeroConstantsGiveZeroTemperature :
    let s : State := { loaded .idle [] with cal := Calibration.zero }
    s.calValid = true ∧ s.cal.T1 = 0 ∧ s.cal.T2 = 0 ∧ s.cal.T3 = 0 ∧
    responds (exec (.compT 741455) s) ⟨.ok, false, 0⟩ .idle = true ∧
    responds (exec (.compT 741456) s) ⟨.ok, true, 0⟩ .idle = true := by decide

/-- ZeroDivisorAnswersZero (V-P3). -/
theorem witness_ZeroDivisorAnswersZero :
    ({ loaded .idle [] with cal := { deviceA with P1 := 0 } } : State).calValid = true ∧
    (pressureTerms 64 p1Unsigned { deviceA with P1 := 0 } 128422).w2.val = 0 := by decide

/-- HumiditySaturates: below, inside and above the range (V-H2, V-H1, V-H3). -/
theorem witness_HumiditySaturates :
    (humidityRaw 32 deviceA 0 128422).val = -474139724 ∧ (humidityRaw 32 deviceA 28191 128422).val = 209228536 ∧
    (humidityRaw 32 deviceA 65535 128422).val = 1066239927 := by decide

/-- HumidityConstantShiftWraps, PressureReadingsDifferOnlyAbove32767: the ends of their ranges. -/
theorem witness_HumidityConstantShiftWraps :
    (2047#16).toNat ≤ 4095 ∧ (4095#16).toNat ≤ 4095 ∧ ({ deviceA with P1 := 32767 } : Calibration).P1.toNat ≤ 32767 ∧
    ((signedFx 2047#16).shl 32 20).ovf = false ∧ ((signedFx 2048#16).shl 32 20).ovf = true := by decide

/-- WrapIsTheUniqueSignedResidue, ShiftsFloorAndDivisionTruncates: the ends of the range, where the quotient is exact. -/
theorem witness_ShiftsFloorAndDivisionTruncates :
    0 < 64 ∧ fits 64 (-2 ^ 63) = true ∧ fits 64 (2 ^ 63 - 1) = true ∧ ¬ ((-2 ^ 63 : Int) = -2 ^ 63 ∧ (1 : Int) = -1) := by
  decide

/-- EveryStepKeepsBlockInv, EveryStepKeepsBusDiscipline: the reset state with a word presented meets both. -/
theorem witness_EveryStepKeepsBlockInv :
    BlockInv (present State.reset 0x2000000000000000#64) ∧ TraceInv (present State.reset 0x2000000000000000#64) ∧
    nextHas (step (present State.reset 0x2000000000000000#64)) (fun t => decide (t.flight ≠ none)) = true := by
  refine ⟨⟨⟨by decide, by decide⟩, ⟨?_, ?_⟩, trivial⟩, ⟨rfl, trivial, trivial⟩, by decide⟩
  · intro h
    simp [present, State.reset] at h
  · intro _
    exact ⟨rfl, rfl, rfl⟩

end Sys2Proof.Tests
end

section
/-! SUPPORT. Scope (00_scope.md): `wrap` as the signed residue (R9) and the idle block (R6). -/

namespace Sys2Proof.Machine

/-- `wrap_N` sees a number only through its residue (R9). -/
theorem wrap_eq_wrap_of_emod_eq {N : Nat} {x y : Int} (h : y % 2 ^ N = x % 2 ^ N) : wrap N y = wrap N x := by
  simp only [wrap, h]

/-- A number that fits and has the residue of `x` is the wrapped value of `x` (R9). -/
theorem eq_wrap_of_fits_of_emod_eq {N : Nat} (hN : 0 < N) {x y : Int} (hy : fits N y = true)
    (h : y % 2 ^ N = x % 2 ^ N) : y = wrap N x :=
  calc y = wrap N y := (wrap_of_fits hN hy).symm
    _ = wrap N x := wrap_eq_wrap_of_emod_eq h

/-- With the port free and nothing presented, the block has nothing to do (R6). -/
theorem activity_idle {s : State} (hhost : s.host = []) (hflight : s.flight = none) : activity s = .idle := by
  simp only [activity, hhost, hflight]

/-- An idle step is no change (R6). -/
theorem step_of_activity_idle {s : State} (h : activity s = .idle) : step s = .next s := by
  simp only [step, h]

/-- Settles O53: the range and the residue are the laws of `wrap`, and uniqueness holds because a number that fits is its
own wrapped value. -/
theorem wrapIsTheUniqueSignedResidue : Obligations.WrapIsTheUniqueSignedResidue := by
  intro N x hN
  obtain ⟨hlow, hhigh⟩ := (fits_iff N _).mp (wrap_fits hN x)
  refine ⟨⟨hlow, hhigh, wrap_emod N x⟩, fun y hylow hyhigh hmod => ?_⟩
  exact eq_wrap_of_fits_of_emod_eq hN ((fits_iff N y).mpr ⟨hylow, hyhigh⟩) hmod

/-- Settles O11: the activity of such a state is `idle`, whose step keeps the state. -/
theorem idleBlockDoesNothing : Obligations.IdleBlockDoesNothing :=
  fun _ hhost hflight => step_of_activity_idle (activity_idle hhost hflight)

end Sys2Proof.Machine
end

section
/-! SUPPORT. The state of the block (10_state.md): what a step can do to the registers, said once; the invariant of the
registers and of the command in flight; a command delayed by silence; the codes and the reset values. -/

namespace Sys2Proof.Machine

/-! ### What the next state of a step can be -/

/-- The five things a step is, as equations for the next state; a decoded command answers one by running (R53, R60, R147). -/
theorem step_next_cases {s t : State} (hstep : step s = .next t) :
    (∃ later, s.host = .reset :: later ∧ t = resetBlock (s.takeHost later)) ∨
    (∃ f, s.flight = some f ∧ t = resume f s) ∨
    (∃ w later i, s.host = .command w :: later ∧ s.flight = none ∧ decode w = .ok i ∧
      t = (commandOf i).run (s.takeHost later)) ∨
    (∃ later, t = (s.takeHost later).raise .illegal) ∨
    t = s := by
  rcases step_cases s with
    ⟨later, hh, he⟩ | ⟨f, hf, -, he⟩ | ⟨w, later, i, hh, hf, hd, he⟩ | ⟨w, later, e, -, -, -, he⟩ | ⟨-, -, he⟩
  all_goals have ht := hstep.symm.trans he
  · exact .inl ⟨later, hh, Host.Outcome.next.inj ht⟩
  · exact .inr (.inl ⟨f, hf, Host.Outcome.next.inj ht⟩)
  · rw [exec_eq_run] at ht
    exact .inr (.inr (.inl ⟨w, later, i, hh, hf, hd, Host.Outcome.next.inj ht⟩))
  · exact .inr (.inr (.inr (.inl ⟨later, Host.Outcome.next.inj ht⟩)))
  · exact .inr (.inr (.inr (.inr (Host.Outcome.next.inj ht))))

/-! ### States with the same registers -/

theorem SameRegisters.accepted {s t : State} (h : SameRegisters s t) {i : Instr} (hacc : Accepted i s) : Accepted i t := by
  obtain ⟨-, hvalid, -, hseq⟩ := h
  obtain ⟨hwf, hcal, hadm⟩ := hacc
  exact ⟨hwf, fun hi => hvalid.trans (hcal hi), by rwa [hseq]⟩

theorem SameRegisters.nibbleRange {s t : State} (h : SameRegisters s t) (hn : NibbleRange s) : NibbleRange t := by
  rwa [NibbleRange, h.1]

theorem SameRegisters.calibrationOk {s t : State} (h : SameRegisters s t) (hc : CalibrationOk s) : CalibrationOk t := by
  obtain ⟨hcal, hvalid, hid, hseq⟩ := h
  rwa [CalibrationOk, hcal, hvalid, hid, hseq]

theorem SameRegisters.statusOutputs {s t : State} (h : SameRegisters s t) : t.statusOutputs = s.statusOutputs := by
  obtain ⟨-, hvalid, hid, hseq⟩ := h
  simp only [State.statusOutputs, hvalid, hid, hseq]

/-- Answered phases touch the bus and the trace only (R33). -/
theorem afterPhases_sameRegisters (s : State) (rs : List Request) (as : List Answer) (later : List BusEvent) :
    SameRegisters s (s.afterPhases rs as later) := ⟨rfl, rfl, rfl, rfl⟩

/-! ### The invariant of the registers and of the command in flight -/

theorem flightOk_of_flight_eq_none {s : State} (h : s.flight = none) : FlightOk s := by
  simp only [FlightOk, h]

/-- A state with the registers of one that meets the invariant, and nothing in flight, meets it. -/
theorem BlockInv.of_sameRegisters {s t : State} (hinv : BlockInv s) (h : SameRegisters s t) (hf : t.flight = none) :
    BlockInv t := by
  obtain ⟨hn, hc, -⟩ := hinv
  exact ⟨h.nibbleRange hn, h.calibrationOk hc, flightOk_of_flight_eq_none hf⟩

/-- Reset values meet the invariant: the constants are 0 and calibration is not valid (R27). -/
theorem blockInv_of_reset_values {s : State} (hcal : s.cal = Calibration.zero) (hvalid : s.calValid = false)
    (hid : s.identity = 0) (hseq : s.seq = .uninitialized) (hf : s.flight = none) : BlockInv s := by
  refine ⟨?_, ⟨fun h => ?_, fun _ => ⟨hcal, hid, hseq⟩⟩, flightOk_of_flight_eq_none hf⟩
  · rw [NibbleRange, hcal]
    decide
  · exact absurd (hvalid.symm.trans h) Bool.false_ne_true

/-- An accepted command that issues its remaining phases `rs`, with the bytes of the phases `before` staged, keeps the
invariant: it commits with exactly the bytes its rule reads, fails without touching a register, or waits at a later phase
with the bytes up to that phase staged (R21, R22, R82). -/
theorem issue_keeps_blockInv {i : Instr} {before rs : List Request} {staged : List Byte} {s : State}
    (hacc : Accepted i s) (hn : NibbleRange s) (hc : CalibrationOk s) (hreq : ruledRequests i = before ++ rs)
    (hst : staged.length = bytesWanted before) : BlockInv ((commandOf i).issue rs before.length staged s) := by
  rcases issue_cases (commandOf i) rs before.length staged s with
    ⟨as, l, h, -, he⟩ | ⟨d, q, rest, as, b, l, -, -, -, -, he⟩ | ⟨d, q, rest, as, tail, l, hrs, h, -, -, he⟩
  · have hsame := afterPhases_sameRegisters s rs as l
    have hlen : (staged ++ deliveredBytes rs as).length = bytesWanted (ruledRequests i) := by
      rw [List.length_append, hst, h.delivered_length, hreq, bytesWanted_append]
    obtain ⟨hn', hc'⟩ := commit_keeps_calibration i _ _ (hsame.accepted hacc) hlen (hsame.nibbleRange hn)
      (hsame.calibrationOk hc)
    obtain ⟨_, _, -, hf, -⟩ := commit_responds i (staged ++ deliveredBytes rs as) (s.afterPhases rs as l)
    rw [he]
    exact ⟨hn', hc', flightOk_of_flight_eq_none hf⟩
  · rw [he]
    exact ⟨hn, hc, trivial⟩
  · have hphases : ruledRequests i = (before ++ d) ++ q :: rest := by rw [hreq, hrs, List.append_assoc]
    have hphase : before.length + d.length = (before ++ d).length := List.length_append.symm
    rw [he, commandOf_instr]
    refine ⟨hn, hc, hacc, ?_, ?_⟩
    · simp [hphases]
    · show (staged ++ deliveredBytes d as).length = bytesWanted ((ruledRequests i).take (before.length + d.length))
      rw [hphases, hphase, List.take_left, bytesWanted_append, List.length_append, hst, h.delivered_length]

/-- Performing a command from its checks on keeps the invariant (R132, R134). -/
theorem run_keeps_blockInv (i : Instr) {s : State} (hinv : BlockInv s) : BlockInv ((commandOf i).run s) := by
  rcases run_cases i s with ⟨hacc, hrun⟩ | ⟨st, -, -, hrun⟩
  · obtain ⟨hn, hc, -⟩ := hinv
    rw [hrun]
    exact issue_keeps_blockInv (before := []) hacc hn hc rfl rfl
  · rw [hrun]
    exact hinv.of_sameRegisters ⟨rfl, rfl, rfl, rfl⟩ rfl

/-- A command in flight that goes on keeps the invariant: its answered phases are the `before` of the issue lemma. -/
theorem resume_keeps_blockInv {f : Flight} {s : State} (hf : s.flight = some f) (hinv : BlockInv s) :
    BlockInv (resume f s) := by
  obtain ⟨hn, hc, hfl⟩ := hinv
  simp only [FlightOk, hf] at hfl
  obtain ⟨hacc, hlt, hst⟩ := hfl
  have hphase : ((ruledRequests f.cmd).take f.phase).length = f.phase := List.length_take_of_le hlt.le
  have h := issue_keeps_blockInv hacc hn hc (List.take_append_drop f.phase _).symm hst
  rwa [hphase, ← commandOf_requests] at h

/-- Settles O57, along the five things a step can be. -/
theorem everyStepKeepsBlockInv : Obligations.EveryStepKeepsBlockInv := by
  intro s t hinv hstep
  rcases step_next_cases hstep with ⟨later, -, rfl⟩ | ⟨f, hf, rfl⟩ | ⟨w, later, i, -, hf, -, rfl⟩ | ⟨later, rfl⟩ | rfl
  · exact blockInv_of_reset_values rfl rfl rfl rfl rfl
  · exact resume_keeps_blockInv hf hinv
  · exact run_keeps_blockInv i (hinv.of_sameRegisters ⟨rfl, rfl, rfl, rfl⟩ hf)
  · exact hinv.of_sameRegisters ⟨rfl, rfl, rfl, rfl⟩ rfl
  · exact hinv

/-- The reset state meets the invariant of the registers (R27). -/
theorem reset_blockInv : BlockInv State.reset := blockInv_of_reset_values rfl rfl rfl rfl rfl

/-- The reset state has an empty trace and nothing in flight (R147, R149). -/
theorem reset_traceInv : TraceInv State.reset := ⟨rfl, trivial, trivial⟩

/-- Settles O56: each of the two invariants holds of the reset state. -/
theorem invariantsHoldAtReset : Obligations.InvariantsHoldAtReset := ⟨reset_blockInv, reset_traceInv⟩

/-! ### What a step can do to the registers -/

/-- The command a step performs: the one in flight, or the one the presented word decodes to (R53). -/
def Performs (s : State) (i : Instr) : Prop :=
  (∃ f, s.flight = some f ∧ f.cmd = i) ∨
    (s.flight = none ∧ ∃ w later, s.host = .command w :: later ∧ decode w = .ok i)

/-- A step without reset leaves the registers as they were, or commits the command it performs, whose phases have touched
neither a register nor the responses. -/
theorem step_registers {s t : State} (hreset : ¬ ResetNext s) (hstep : step s = .next t) :
    SameRegisters s t ∨ ∃ i bytes u, Performs s i ∧ SameRegisters s u ∧ u.responses = s.responses ∧
      t = (commandOf i).commit bytes u := by
  rcases step_next_cases hstep with
    ⟨later, hh, -⟩ | ⟨f, hf, rfl⟩ | ⟨w, later, i, hh, hf, hd, rfl⟩ | ⟨later, rfl⟩ | rfl
  · exact absurd ⟨later, hh⟩ hreset
  · rcases issue_registers f.cmd ((commandOf f.cmd).requests.drop f.phase) f.phase f.staged s with
      ⟨as, later, -, -, hc⟩ | ⟨hsame, -⟩
    · exact .inr ⟨f.cmd, _, _, .inl ⟨f, hf, rfl⟩, afterPhases_sameRegisters s _ as later, rfl, hc⟩
    · exact .inl hsame
  · rcases run_cases i (s.takeHost later) with ⟨-, hrun⟩ | ⟨st, -, -, hrun⟩
    · rw [hrun]
      rcases issue_registers i (ruledRequests i) 0 [] (s.takeHost later) with ⟨as, l, -, -, hc⟩ | ⟨hsame, -⟩
      · exact .inr ⟨i, _, _, .inr ⟨hf, w, later, hh, hd⟩, afterPhases_sameRegisters (s.takeHost later) _ as l, rfl, hc⟩
      · exact .inl hsame
    · rw [hrun]
      exact .inl ⟨rfl, rfl, rfl, rfl⟩
  · exact .inl ⟨rfl, rfl, rfl, rfl⟩
  · exact .inl ⟨rfl, rfl, rfl, rfl⟩

/-- Settles O17: a step without reset that changes an output is a commit, which responds. -/
theorem statusOutputsChangeOnlyAtResponse : Obligations.StatusOutputsChangeOnlyAtResponse := by
  refine ⟨fun _ => rfl, fun s t hstep hout => ?_⟩
  by_cases hreset : ResetNext s
  · exact .inl hreset
  rcases step_registers hreset hstep with hsame | ⟨i, bytes, u, -, -, hresp, rfl⟩
  · exact absurd hsame.statusOutputs hout
  · obtain ⟨ovf, res, hr, hf, -⟩ := commit_responds i bytes u
    exact .inr ⟨hf, ⟨.ok, ovf, res⟩, by rw [hr, hresp]⟩

/-- The one word of LOAD_CAL (R55, R66). -/
theorem eq_of_decode_eq_loadCal {w : CmdWord} (h : decode w = .ok .loadCal) : w = 0x2000000000000000#64 := by
  simp only [decode] at h
  split at h
  case h_2 hop =>
    obtain ⟨hzero, -⟩ := (acceptIf_ok _ _ _ _).mp h
    rw [bitsAt_toNat] at hop
    rw [zeroAt_iff] at hzero
    have hlt := w.isLt
    apply BitVec.eq_of_toNat_eq
    simp only [BitVec.toNat_ofNat]
    omega
  all_goals simp at h

/-- Settles O35: a step that changes the calibration registers commits a command, and only LOAD_CAL's commit writes them. -/
theorem onlyLoadCalWritesCalibration : Obligations.OnlyLoadCalWritesCalibration := by
  intro s t hreset hstep
  rcases step_registers hreset hstep with ⟨hcal, hvalid, hid, -⟩ | ⟨i, bytes, u, hperf, hsame, hresp, rfl⟩
  · exact .inl ⟨hcal, hvalid, hid⟩
  by_cases hi : i = .loadCal
  · subst hi
    refine .inr ⟨rfl, rfl, by rw [← hresp]; rfl, ?_⟩
    rcases hperf with hflight | ⟨hf, w, later, hh, hd⟩
    · exact .inl hflight
    · rw [eq_of_decode_eq_loadCal hd] at hh
      exact .inr ⟨hf, later, hh⟩
  · obtain ⟨hcal, hvalid, hid, -⟩ := hsame
    obtain ⟨hcal', hvalid', hid'⟩ := commit_calibration i bytes u hi
    exact .inl ⟨hcal'.trans hcal, hvalid'.trans hvalid, hid'.trans hid⟩

/-! ### A command delayed by silence -/

theorem answersThen_append (xs ys : List Answer) (later : List BusEvent) :
    answersThen (xs ++ ys) later = answersThen xs (answersThen ys later) := by
  simp [answersThen]

/-- The answers before the transport's first silence are determined by what the transport does, and so is what comes after. -/
theorem answers_before_silence {early as : List Answer} {tail later rest : List BusEvent} (hsil : SilentAt tail later)
    (h : answersThen early (.silent :: rest) = answersThen as tail) : as = early ∧ later = rest := by
  induction early generalizing as with
  | nil =>
    cases as with
    | nil =>
      rcases hsil with ⟨rfl, rfl⟩ | rfl
      · simp at h
      · exact ⟨rfl, (List.cons.inj h).2.symm⟩
    | cons a as => simp at h
  | cons e early ih =>
    cases as with
    | nil => rcases hsil with ⟨rfl, rfl⟩ | rfl <;> simp at h
    | cons a as =>
      simp only [answersThen_cons, List.cons.injEq, BusEvent.answer.injEq] at h
      obtain ⟨rfl, h⟩ := h
      obtain ⟨rfl, rfl⟩ := ih h
      exact ⟨rfl, rfl⟩

/-- Phases that succeed bring the command to its next phase, with the bytes they delivered staged (R22, R50). -/
theorem issue_append (c : Command) {done : List Request} (rest : List Request) {as : List Answer}
    {later : List BusEvent} (k : Nat) (staged : List Byte) {s : State} (h : AllSucceed done as)
    (hbus : s.bus = answersThen as later) :
    c.issue (done ++ rest) k staged s
      = c.issue rest (k + done.length) (staged ++ deliveredBytes done as) (s.afterPhases done as later) := by
  induction done generalizing as k staged s with
  | nil =>
    obtain rfl := List.length_eq_zero_iff.mp h.length_eq
    have hs : s.afterPhases [] [] later = s := by
      rw [answersThen_nil] at hbus
      simp [State.afterPhases, answeredPhases, ← hbus]
    simp [deliveredBytes, hs]
  | cons r done ih =>
    cases as with
    | nil => exact absurd h (by simp [AllSucceed])
    | cons a as =>
      obtain ⟨ha, hrest⟩ := h
      rw [answersThen_cons] at hbus
      simp only [List.cons_append, Command.issue, hbus, ha, if_true]
      rw [ih (k + 1) _ hrest rfl, logPhase_afterPhases]
      simp [deliveredBytes, List.append_assoc, Nat.add_comm, Nat.add_left_comm]

/-- A step of a command in flight, with no reset, goes on with it (R53). -/
theorem step_of_inFlight {s : State} {f : Flight} (hf : s.flight = some f) (hreset : ¬ ResetNext s) :
    step s = .next (resume f s) := by
  rcases step_cases s with ⟨later, hh, -⟩ | ⟨g, hg, -, he⟩ | ⟨_, _, _, -, hn, -⟩ | ⟨_, _, _, -, hn, -⟩ | ⟨-, hn, -⟩
  · exact absurd ⟨later, hh⟩ hreset
  · rw [he, Option.some.inj (hg.symm.trans hf)]
  all_goals simp [hf] at hn

/-- A command that waits issues its pending phases in the next step without reset, from the state it waits in (R22, R23). -/
theorem step_await {s : State} (hreset : ¬ ResetNext s) (i : Instr) (k : Nat) (staged : List Byte) :
    step (s.await i k staged) = .next ((commandOf i).issue ((ruledRequests i).drop k) k staged s) := by
  rw [step_of_inFlight (await_flight s i k staged) hreset]
  simp only [resume, State.await, commandOf_requests, issue_flight]

/-- A command that is in flight after it was performed was accepted, and waits where the transport fell silent. -/
theorem exec_waits {i : Instr} {s t : State} {early : List Answer} {rest : List BusEvent}
    (hbus : s.bus = answersThen early (.silent :: rest)) (he : exec i s = .next t) (hf : t.flight ≠ none) :
    Accepted i s ∧ ∃ done pending, ruledRequests i = done ++ pending ∧ AllSucceed done early ∧
      t = (s.afterPhases done early rest).await i done.length (deliveredBytes done early) := by
  rw [exec_eq_run] at he
  obtain rfl := Host.Outcome.next.inj he
  rcases run_cases i s with ⟨hacc, hrun⟩ | ⟨st, -, -, hrun⟩
  · rw [hrun] at hf ⊢
    rcases issue_cases (commandOf i) (ruledRequests i) 0 [] s with
      ⟨as, l, -, -, hc⟩ | ⟨d, q, r, as, b, l, -, -, -, -, hc⟩ | ⟨d, q, r, as, tail, l, hrs, h, hsil, hb, hc⟩
    · obtain ⟨_, _, -, hnone, -⟩ := commit_responds i ([] ++ deliveredBytes (ruledRequests i) as)
        (s.afterPhases (ruledRequests i) as l)
      rw [hc] at hf
      exact absurd hnone hf
    · rw [hc] at hf
      exact absurd rfl hf
    · obtain ⟨rfl, rfl⟩ := answers_before_silence hsil (hbus.symm.trans hb)
      exact ⟨hacc, d, q :: r, hrs, h, by rw [hc, commandOf_instr, Nat.zero_add, List.nil_append]⟩
  · rw [hrun] at hf
    exact absurd rfl hf

/-- Settles O15: the delayed and the undelayed command both issue the pending phases from the same state. -/
theorem silenceOnlyDelaysACommand : Obligations.SilenceOnlyDelaysACommand := by
  intro i s t early late later hreset hbus he hf
  obtain ⟨hacc, done, pending, hreq, hs, rfl⟩ := exec_waits hbus he hf
  have hacc' : Accepted i { s with bus := answersThen (early ++ late) later } := hacc
  have hreset' : ¬ ResetNext (s.afterPhases done early (answersThen late later)) := hreset
  rw [step_await hreset', exec_of_accepted hacc', hreq, List.drop_left,
    issue_append (commandOf i) pending 0 [] hs (answersThen_append early late later), Nat.zero_add, List.nil_append]
  rfl

/-! ### The two readings of P1 -/

/-- Up to 0x7FFF the sign bit of P1 is 0, and both widenings give the same number (R15, R111). -/
theorem widenP1_eq_of_le {x : BitVec 16} (h : x.toNat ≤ 32767) : widenP1 true x = widenP1 false x := by
  have hint : x.toInt = x.toNat := BitVec.toInt_eq_toNat_of_lt (by omega)
  simp [widenP1, unsignedFx, signedFx, hint]

/-- The reading of P1 reaches the pressure formula only through the widened P1 (R118). -/
theorem pressureTerms_congr_widenP1 {p q : Bool} {c : Calibration} (h : widenP1 p c.P1 = widenP1 q c.P1) (W : Nat)
    (tFine : BitVec 32) : pressureTerms W p c tFine = pressureTerms W q c tFine := by
  simp only [pressureTerms, h]

/-- Settles O52: both readings have the same terms, and the second part sees only those. -/
theorem pressureReadingsDifferOnlyAbove32767 : Obligations.PressureReadingsDifferOnlyAbove32767 := by
  intro W c adcP tFine h
  simp only [compensateP, pressureTerms_congr_widenP1 (widenP1_eq_of_le h)]

/-! ### Codes, the packing of a response, and reset values -/

/-- `rsp[68:65]` is the status code (R57). -/
theorem packed_status (r : Response) : r.packed.extractLsb' 65 4 = r.status.code := by
  rw [Response.packed, BitVec.extractLsb'_append_eq_of_le (by decide), BitVec.extractLsb'_append_eq_of_le (by decide)]
  exact BitVec.extractLsb'_eq_self

/-- `rsp[64]` is `ovf` (R57). -/
theorem packed_ovf (r : Response) : r.packed.getLsbD 64 = r.ovf := by
  rw [Response.packed, BitVec.getLsbD_append, if_neg (by decide), BitVec.getLsbD_append, if_pos (by decide)]
  simp

/-- `rsp[63:0]` is the payload (R57). -/
theorem packed_res (r : Response) : r.packed.extractLsb' 0 64 = r.res := by
  rw [Response.packed, BitVec.extractLsb'_append_eq_of_add_le (by decide)]
  exact BitVec.extractLsb'_eq_self

/-- Settles O8: the codes are those of the definitions' tables, and each field of the packed word is read back. -/
theorem codesAndPacking : Obligations.CodesAndPacking :=
  ⟨rfl, rfl, rfl, rfl, rfl, rfl, rfl, rfl, rfl, rfl, rfl, fun r => ⟨packed_status r, packed_ovf r, packed_res r⟩⟩

/-- Reset is what a step does when reset is asserted, whatever is in flight (R147, R148). -/
theorem step_of_reset {s : State} {later : List HostEvent} (h : s.host = .reset :: later) :
    step s = .next (resetBlock (s.takeHost later)) := by
  simp only [step, activity, h]

/-- Settles O18: the step is the reset of the block, whose registers are those of the initial state. -/
theorem resetGivesResetValues : Obligations.ResetGivesResetValues :=
  ⟨fun _ _ h => ⟨_, step_of_reset h, rfl, rfl, rfl, rfl, rfl⟩, rfl, rfl, rfl, rfl, rfl⟩

end Sys2Proof.Machine
end

section
/-! SUPPORT. The bus (20_memory.md): when a phase succeeds, what a failed phase ends with, the logs, and the discipline
of the trace. -/

namespace Sys2Proof.Machine

/-! ### Phases -/

/-- Settles O12: for each kind of request the definition is the rule's condition. -/
theorem phaseSuccessIsOkAndByteCount : Obligations.PhaseSuccessIsOkAndByteCount := by
  refine fun a => ⟨fun reg => Iff.rfl, fun n => ?_, fun reg val => Iff.rfl⟩
  simp [Answer.succeeds]

/-- The entries of answered phases and of one more phase after them. -/
theorem answeredPhases_concat {done : List Request} {as : List Answer} (h : AllSucceed done as) (r : Request)
    (a : Answer) : answeredPhases (done ++ [r]) (as ++ [a]) = answeredPhases done as ++ [⟨r, some a⟩] := by
  induction done generalizing as with
  | nil =>
    obtain rfl := List.length_eq_zero_iff.mp h.length_eq
    rfl
  | cons q done ih =>
    cases as with
    | nil => exact absurd h (by simp [AllSucceed])
    | cons b as => simp [answeredPhases, ih h.2]

/-! ### The first failed phase -/

/-- The status of a command whose phase with this request failed: only the write of 0xF4 comes after another write (R136,
R137). -/
def failedStatus : Request → Status
  | .wr reg _ => if reg = 0xF4 then .busPartial else .bus
  | .sel _ => .bus
  | .rd _ => .bus

/-- The status a command raises for the index of a failed phase is that of the phase's request (R136, R137). -/
theorem failStatus_eq_failedStatus {i : Instr} {k : Nat} {r : Request} (h : (ruledRequests i)[k]? = some r) :
    (commandOf i).failStatus k = failedStatus r := by
  rw [commandOf_failStatus]
  cases i with
  | start osrsH osrsT osrsP mode =>
    match k with
    | 0 | 1 =>
      obtain rfl := Option.some.inj h
      rfl
    | k + 2 => simp [ruledRequests] at h
  | _ =>
    replace h := List.mem_of_getElem? h
    revert r
    simp [ruledRequests, failedStatus]

/-- Settles O13: issuing the phases ends at the failed one, whose index is the number of phases before it. -/
theorem firstFailedPhaseEndsCommand : Obligations.FirstFailedPhaseEndsCommand := by
  intro i s done rest r as a later hacc hreq hdone hfail hbus
  have hstatus : (commandOf i).failStatus (0 + done.length) = failedStatus r :=
    failStatus_eq_failedStatus (by simp [hreq])
  rw [exec_of_accepted hacc, hreq, issue_first_failure later _ done rest as 0 [] s r a hdone hfail hbus,
    raise_afterPhases, hstatus]
  cases r <;> rfl

/-! ### The logs -/

/-- The trace and the responses of `t` begin with those of `s` (R50). -/
def LogsExtend (s t : State) : Prop :=
  (∃ phases, t.trace = s.trace ++ phases) ∧ ∃ rs, t.responses = s.responses ++ rs

/-- A log that stays as it was extends itself. -/
theorem unchanged_extends {α : Type} (log : List α) : ∃ more, log = log ++ more := ⟨[], (List.append_nil log).symm⟩

/-- Issuing phases, from whichever phase, only adds to the logs (R50). -/
theorem issue_extends_logs (i : Instr) (rs : List Request) (k : Nat) (staged : List Byte) (s : State) :
    LogsExtend s ((commandOf i).issue rs k staged s) := by
  rcases issue_cases (commandOf i) rs k staged s with
    ⟨as, l, -, -, he⟩ | ⟨d, r, rest, as, a, l, -, -, -, -, he⟩ | ⟨d, r, rest, as, tail, l, -, -, -, -, he⟩
  · obtain ⟨ovf, res, hresp, -, -, -, htrace⟩ :=
      commit_responds i (staged ++ deliveredBytes rs as) (s.afterPhases rs as l)
    rw [he]
    exact ⟨⟨_, htrace⟩, _, hresp⟩
  · rw [he]
    exact ⟨⟨_, rfl⟩, _, rfl⟩
  · rw [he]
    exact ⟨⟨_, rfl⟩, unchanged_extends _⟩

/-- Performing a command from its checks on only adds to the logs (R132). -/
theorem run_extends_logs (i : Instr) (s : State) : LogsExtend s ((commandOf i).run s) := by
  rcases run_cases i s with ⟨-, hrun⟩ | ⟨st, -, -, hrun⟩
  · rw [hrun]
    exact issue_extends_logs i _ 0 [] s
  · rw [hrun]
    exact ⟨unchanged_extends _, _, rfl⟩

/-- Settles O16, along the five things a step can be. -/
theorem traceAndResponsesOnlyGrow : Obligations.TraceAndResponsesOnlyGrow := by
  intro s t hstep
  rcases step_next_cases hstep with ⟨later, -, rfl⟩ | ⟨f, -, rfl⟩ | ⟨w, later, i, -, -, -, rfl⟩ | ⟨later, rfl⟩ | rfl
  · exact ⟨⟨_, rfl⟩, unchanged_extends _⟩
  · exact issue_extends_logs f.cmd _ f.phase f.staged s
  · exact run_extends_logs i (s.takeHost later)
  · exact ⟨unchanged_extends _, _, rfl⟩
  · exact ⟨unchanged_extends _, unchanged_extends _⟩

/-! ### The discipline of the trace -/

/-- `r` may come right after `q`, whatever answer made `q` succeed (R34, R88). -/
def MayFollow (q r : Request) : Prop := ∀ a : Answer, a.succeeds q = true → followsRule (some ⟨q, some a⟩) r = true

/-- In every command each phase may come right after the one before it: RD after SEL, 0xF4 after 0xF2 (R35, R36, R88). -/
theorem ruledRequests_chain (i : Instr) : (ruledRequests i).IsChain MayFollow := by
  cases i <;> simp [ruledRequests, MayFollow, followsRule, Answer.succeeds]

/-- The requests `rs` may be issued in state `s`: the trace is disciplined so far, the first request follows its last phase,
each other request follows the one before it, and all are permitted. -/
structure Issuable (s : State) (rs : List Request) : Prop where
  trace : disciplined none s.trace = true
  first : ∀ r ∈ rs.take 1, followsRule s.trace.getLast? r = true
  chain : rs.IsChain MayFollow
  permitted : ∀ r ∈ rs, permittedRequest r = true

/-- A disciplined trace stays so with the next request, answered or not. -/
theorem Issuable.disciplined_concat {s : State} {r : Request} {rs : List Request} (h : Issuable s (r :: rs))
    (answer : Option Answer) : disciplined none (s.trace ++ [⟨r, answer⟩]) = true := by
  have hfirst : followsRule s.trace.getLast? r = true := h.first r (by simp)
  have hperm : permittedRequest r = true := h.permitted r (by simp)
  rw [disciplined_append, h.trace]
  simp [disciplined, hfirst, hperm]

/-- After a successful phase the remaining requests may be issued (R34). -/
theorem Issuable.logPhase {s : State} {r : Request} {rs : List Request} (h : Issuable s (r :: rs)) {a : Answer}
    (ha : a.succeeds r = true) (later : List BusEvent) : Issuable (s.logPhase r a later) rs := by
  obtain ⟨hnext, hchain⟩ := List.isChain_cons.mp h.chain
  refine ⟨h.disciplined_concat (some a), fun q hq => ?_, hchain, fun q hq => h.permitted q (List.mem_cons_of_mem r hq)⟩
  have hhead : q ∈ rs.head? := by cases rs <;> simp_all
  simpa using hnext q hhead a ha

/-- After any number of successful phases the remaining requests may be issued. -/
theorem Issuable.afterPhases {s : State} {done rest : List Request} {as : List Answer} (h : Issuable s (done ++ rest))
    (hs : AllSucceed done as) (later : List BusEvent) : Issuable (s.afterPhases done as later) rest := by
  induction done generalizing as s with
  | nil => exact ⟨by simpa [answeredPhases] using h.trace, by simpa [answeredPhases] using h.first, h.chain, h.permitted⟩
  | cons q done ih =>
    cases as with
    | nil => exact absurd hs (by simp [AllSucceed])
    | cons a as =>
      obtain ⟨ha, hrest⟩ := hs
      rw [← logPhase_afterPhases s done as later q a later]
      exact ih (h.logPhase ha later) hrest

/-- Whatever the trace ends with, the phases of a well-formed command may be issued (R31, R43, R61). -/
theorem issuable_ruledRequests {i : Instr} {s : State} (hacc : Accepted i s) (ht : disciplined none s.trace = true) :
    Issuable s (ruledRequests i) :=
  ⟨ht, first_request_follows i _, ruledRequests_chain i, ruledRequests_permitted i hacc.1⟩

theorem traceInv_of_flight_eq_none {s : State} (hf : s.flight = none) (ht : disciplined none s.trace = true) :
    TraceInv s :=
  ⟨ht, flightOk_of_flight_eq_none hf, by simp only [OutstandingFollows, hf]⟩

/-- A command waiting with the requests `rest` outstanding, which may be issued, meets the invariant. -/
theorem traceInv_await {i : Instr} {s : State} {before rest : List Request} {r : Request} {staged : List Byte}
    (hacc : Accepted i s) (hreq : ruledRequests i = before ++ r :: rest) (hst : staged.length = bytesWanted before)
    (h : Issuable s (r :: rest)) : TraceInv (s.await i before.length staged) := by
  refine ⟨h.trace, ⟨hacc, ?_, ?_⟩, ?_⟩
  · simp [hreq]
  · simp [hreq, hst]
  · simpa [OutstandingFollows, outstanding, commandOf_requests, hreq] using h.first

/-- A command that goes on from the requests `rs`, with the bytes of the phases `before` staged, keeps the invariant: it
commits or fails with a disciplined trace, or waits for a request that may come next (R34, R50). -/
theorem issue_keeps_traceInv {i : Instr} {before rs : List Request} {staged : List Byte} {s : State}
    (hacc : Accepted i s) (hreq : ruledRequests i = before ++ rs) (hst : staged.length = bytesWanted before)
    (h : Issuable s rs) : TraceInv ((commandOf i).issue rs before.length staged s) := by
  rcases issue_cases (commandOf i) rs before.length staged s with
    ⟨as, l, hs, -, he⟩ | ⟨d, r, rest, as, a, l, rfl, hs, -, -, he⟩ | ⟨d, r, rest, as, tail, l, rfl, hs, -, -, he⟩
  · obtain ⟨_, _, -, hf, -, -, htrace⟩ := commit_responds i (staged ++ deliveredBytes rs as) (s.afterPhases rs as l)
    have hdone : Issuable (s.afterPhases rs as l) [] := Issuable.afterPhases (by rwa [List.append_nil]) hs l
    rw [he]
    exact traceInv_of_flight_eq_none hf (htrace ▸ hdone.trace)
  · have hfailed := (h.afterPhases hs l).disciplined_concat (some a)
    rw [he]
    refine traceInv_of_flight_eq_none rfl ?_
    simpa [answeredPhases_concat hs] using hfailed
  · have hlen : (staged ++ deliveredBytes d as).length = bytesWanted (before ++ d) := by
      rw [List.length_append, hst, hs.delivered_length, bytesWanted_append]
    rw [he, commandOf_instr, ← List.length_append]
    exact traceInv_await hacc (by rw [hreq, List.append_assoc]) hlen (h.afterPhases hs l)

/-- Performing a command from its checks on keeps the invariant (R132, R134). -/
theorem run_keeps_traceInv (i : Instr) {s : State} (ht : disciplined none s.trace = true) :
    TraceInv ((commandOf i).run s) := by
  rcases run_cases i s with ⟨hacc, hrun⟩ | ⟨st, -, -, hrun⟩
  · rw [hrun]
    exact issue_keeps_traceInv (before := []) hacc rfl rfl (issuable_ruledRequests hacc ht)
  · rw [hrun]
    exact traceInv_of_flight_eq_none rfl ht

/-- The pending requests of a command in flight may be issued. -/
theorem TraceInv.issuable_pending {s : State} {f : Flight} (hinv : TraceInv s) (hf : s.flight = some f) :
    Issuable s ((ruledRequests f.cmd).drop f.phase) := by
  obtain ⟨ht, hflight, hout⟩ := hinv
  simp only [FlightOk, hf] at hflight
  simp only [OutstandingFollows, hf, outstanding, commandOf_requests] at hout
  obtain ⟨⟨hwf, -, -⟩, -, -⟩ := hflight
  exact ⟨ht, hout, (ruledRequests_chain f.cmd).drop f.phase,
    fun r hr => ruledRequests_permitted f.cmd hwf r (List.mem_of_mem_drop hr)⟩

/-- A command in flight that goes on keeps the invariant: its answered phases are the `before` of the issue lemma. -/
theorem resume_keeps_traceInv {f : Flight} {s : State} (hf : s.flight = some f) (hinv : TraceInv s) :
    TraceInv (resume f s) := by
  have hpending := hinv.issuable_pending hf
  obtain ⟨-, hflight, -⟩ := hinv
  simp only [FlightOk, hf] at hflight
  obtain ⟨hacc, hlt, hst⟩ := hflight
  have hphase : ((ruledRequests f.cmd).take f.phase).length = f.phase := List.length_take_of_le hlt.le
  have h := issue_keeps_traceInv hacc (List.take_append_drop f.phase _).symm hst hpending
  rwa [hphase, ← commandOf_requests] at h

/-- Reset leaves a disciplined trace: the one request it abandons was allowed to be issued (R148, R149). -/
theorem disciplined_abandoned {s : State} (hinv : TraceInv s) :
    disciplined none (s.trace ++ abandonedPhases s) = true := by
  cases hf : s.flight with
  | none => simpa [abandonedPhases, hf] using hinv.1
  | some f =>
    have h := hinv.issuable_pending hf
    simp only [abandonedPhases, hf, outstanding, commandOf_requests]
    cases hd : (ruledRequests f.cmd).drop f.phase with
    | nil => simpa using hinv.1
    | cons r rest =>
      rw [hd] at h
      exact h.disciplined_concat none

/-- Settles O58, along the five things a step can be. -/
theorem everyStepKeepsBusDiscipline : Obligations.EveryStepKeepsBusDiscipline := by
  intro s t hinv hstep
  rcases step_next_cases hstep with ⟨later, -, rfl⟩ | ⟨f, hf, rfl⟩ | ⟨w, later, i, -, -, -, rfl⟩ | ⟨later, rfl⟩ | rfl
  · exact traceInv_of_flight_eq_none rfl (disciplined_abandoned hinv)
  · exact resume_keeps_traceInv hf hinv
  · exact run_keeps_traceInv i hinv.1
  · exact traceInv_of_flight_eq_none rfl hinv.1
  · exact hinv

end Sys2Proof.Machine
end

section
/-! SUPPORT. Encoding (30_encoding.md): a word is its fields side by side, so that the decoder and the encoder are
inverse and the decoder agrees with the opcode table; which words are illegal; what a step does with the presented word;
reserved operand codes; and the payload of a response. -/

namespace Sys2Proof

/-! ### A word and its fields -/

/-- Two fields next to each other are one field (R8). -/
theorem bitsAt_append (w : CmdWord) {hi lo m n : Nat} (h : hi = lo + n) :
    bitsAt w hi m ++ bitsAt w lo n = bitsAt w lo (m + n) :=
  BitVec.extractLsb'_append_extractLsb'_eq_extractLsb' h

/-- All 64 bits of a word are the word. -/
theorem bitsAt_whole (w : CmdWord) : bitsAt w 0 64 = w := BitVec.extractLsb'_eq_self

/-- A must-be-zero field as a bit vector. -/
theorem zeroAt_iff_bitsAt (w : CmdWord) (lo n : Nat) : zeroAt w lo n = true ↔ bitsAt w lo n = 0#n := beq_iff_eq

/-- A field that has the number `k` is the bit vector of `k`. -/
theorem bitsAt_eq_ofNat {w : CmdWord} {lo n k : Nat} (h : (bitsAt w lo n).toNat = k) :
    bitsAt w lo n = BitVec.ofNat n k := by
  rw [← h, BitVec.ofNat_toNat, BitVec.setWidth_eq]

/-! ### The decoder and the encoder -/

/-- Every field the decoder reads from a command's word is the part the encoder put there (R66). -/
theorem decode_encode (i : Instr) : decode (encode i) = .ok i := by
  cases i
  all_goals
    simp (disch := decide) only [decode, zeroAt, bitsAt, encode, BitVec.extractLsb'_append_eq_of_le,
      BitVec.extractLsb'_append_eq_of_add_le]
    simp [acceptIf]

/-- The fields of a word that decodes, must-be-zero fields included, make up the word (R66). -/
theorem encode_of_decode {w : CmdWord} {i : Instr} (h : decode w = .ok i) : encode i = w := by
  refine Eq.trans ?_ (bitsAt_whole w)
  simp only [decode] at h
  split at h
  case h_10 => simp at h
  all_goals
    rename_i hop
    replace hop := bitsAt_eq_ofNat hop
    obtain ⟨hmbz, rfl⟩ := (acceptIf_ok _ _ _ _).mp h
    simp only [Bool.and_eq_true, zeroAt_iff_bitsAt] at hmbz
    simp only [encode, ← hop, ← hmbz, bitsAt_append]

/-- Settles O1: by the fields of each command's word. -/
theorem decodeInvertsEncode : Obligations.DecodeInvertsEncode := decode_encode

/-- Settles O2: by putting the fields of the word together again. -/
theorem encodeInvertsDecode : Obligations.EncodeInvertsDecode := fun _ _ => encode_of_decode

/-! ### The opcode table -/

/-- A field that a row's mask keeps whole has the value the row's pattern gives it (R70). -/
theorem bitsAt_of_covers {row : OpcodeRow} {w : CmdWord} {lo n : Nat} (h : row.covers w = true)
    (hmask : bitsAt row.mask lo n = BitVec.allOnes n) : bitsAt w lo n = bitsAt row.pattern lo n := by
  have hw : w &&& row.mask = row.pattern := beq_iff_eq.mp h
  simp only [bitsAt] at hmask ⊢
  rw [← hw, BitVec.extractLsb'_and, hmask, BitVec.and_allOnes]

/-- The word of a command is covered by the command's own row (R70). -/
theorem row_covers_encode (i : Instr) :
    ∃ row ∈ opcodeTable, row.mnemonic = i.mnemonic ∧ row.covers (encode i) = true := by
  cases i with
  | probe => exact Laws.TableRow.probe
  | loadCal => exact Laws.TableRow.loadCal
  | configure period filter => exact Laws.TableRow.configure period filter
  | start osrsH osrsT osrsP mode => exact Laws.TableRow.start osrsH osrsT osrsP mode
  | isBusy => exact Laws.TableRow.isBusy
  | readSample => exact Laws.TableRow.readSample
  | compT adcT => exact Laws.TableRow.compT adcT
  | compP adcP tFine => exact Laws.TableRow.compP adcP tFine
  | compH adcH tFine => exact Laws.TableRow.compH adcH tFine

/-- A word that decodes is its command's word, so the command's row covers it (R70). -/
theorem row_covers_of_decode {w : CmdWord} {i : Instr} (h : decode w = .ok i) :
    ∃ row ∈ opcodeTable, row.mnemonic = i.mnemonic ∧ row.covers w = true := by
  rw [← encode_of_decode h]
  exact row_covers_encode i

/-- A word that a row covers has the row's opcode, and zeros where its command must have them (R70). -/
theorem decode_of_covers {w : CmdWord} {row : OpcodeRow} (hrow : row ∈ opcodeTable) (h : row.covers w = true) :
    ∃ i, decode w = .ok i ∧ i.mnemonic = row.mnemonic := by
  simp only [opcodeTable, List.mem_cons, List.not_mem_nil, or_false] at hrow
  rcases hrow with rfl | rfl | rfl | rfl | rfl | rfl | rfl | rfl | rfl
  all_goals
    have hop := bitsAt_of_covers (lo := 60) (n := 4) h rfl
    simp only [decode, hop]
    refine ⟨_, (acceptIf_ok _ _ _ _).mpr ⟨?_, rfl⟩, rfl⟩
    simp only [Bool.and_eq_true, zeroAt_iff_bitsAt]
    and_intros
  all_goals exact bitsAt_of_covers h rfl

/-- Settles O3: with the two directions between decoding and rows, a word that no row covers decodes to no command. -/
theorem decodeFollowsOpcodeTable : Obligations.DecodeFollowsOpcodeTable := by
  refine ⟨fun w i h => row_covers_of_decode h, fun w row hrow h => decode_of_covers hrow h, fun w hnone => ?_⟩
  cases hd : decode w with
  | ok i =>
    obtain ⟨row, hrow, -, hcovers⟩ := row_covers_of_decode hd
    exact absurd (hcovers.symm.trans (hnone row hrow)) (by decide)
  | error e => exact ⟨e, rfl⟩

/-- Settles O4: the decoder evaluates each word. -/
theorem writtenWordsDecode : Obligations.WrittenWordsDecode :=
  ⟨rfl, rfl, rfl, rfl, rfl, rfl, rfl, rfl, rfl, rfl, rfl⟩

/-! ### The operand fields that are register images -/

/-- CONFIGURE's operands stand in bits 7:5 and 4:2, above two zeros (R56). -/
theorem encode_configure_fields (period filter : BitVec 3) :
    let w := encode (.configure period filter)
    bitsAt w 5 3 = period ∧ bitsAt w 2 3 = filter ∧ bitsAt w 0 2 = 0#2 := by
  simp (disch := decide) only [bitsAt, encode, BitVec.extractLsb'_append_eq_of_le,
    BitVec.extractLsb'_append_eq_of_add_le]
  simp

/-- START's operands stand in bits 10:8, 7:5, 4:2 and 1:0 (R56). -/
theorem encode_start_fields (osrsH osrsT osrsP : BitVec 3) (mode : BitVec 2) :
    let w := encode (.start osrsH osrsT osrsP mode)
    bitsAt w 8 3 = osrsH ∧ bitsAt w 5 3 = osrsT ∧ bitsAt w 2 3 = osrsP ∧ bitsAt w 0 2 = mode := by
  simp (disch := decide) only [bitsAt, encode, BitVec.extractLsb'_append_eq_of_le,
    BitVec.extractLsb'_append_eq_of_add_le]
  simp

/-- The low byte of a word is the three fields that CONFIGURE and START have there (R56). -/
theorem low_byte_fields (w : CmdWord) : w.extractLsb' 0 8 = bitsAt w 5 3 ++ bitsAt w 2 3 ++ bitsAt w 0 2 := by
  simp only [bitsAt_append]
  rfl

/-- Settles O7: each image is fields side by side, and so is the low byte of the word. -/
theorem registerImagesAreCommandBits : Obligations.RegisterImagesAreCommandBits := by
  refine ⟨fun period filter => ?_, fun osrsH osrsT osrsP mode => ?_⟩
  · obtain ⟨hperiod, hfilter, hzero⟩ := encode_configure_fields period filter
    rw [Machine.configImage_eq, low_byte_fields, hperiod, hfilter, hzero]
  · obtain ⟨hosrsH, hosrsT, hosrsP, hmode⟩ := encode_start_fields osrsH osrsT osrsP mode
    refine ⟨?_, ?_⟩
    · rw [Machine.measureImage_eq, low_byte_fields, hosrsT, hosrsP, hmode]
    · exact congrArg (BitVec.zeroExtend 8) hosrsH.symm

end Sys2Proof

namespace Sys2Proof.Machine

/-! ### The presented word -/

/-- With the port free, the presented word is accepted (R53). -/
theorem step_of_command {s : State} {w : CmdWord} {later : List HostEvent} (hhost : s.host = .command w :: later)
    (hflight : s.flight = none) : step s = accept w (s.takeHost later) := by
  simp only [step, activity, hhost, hflight]

/-- A word that decodes to a command is performed (R53, R66). -/
theorem accept_of_decode {w : CmdWord} {i : Instr} (h : decode w = .ok i) (s : State) : accept w s = exec i s := by
  simp only [accept, h]

/-- A word that does not decode completes with `ST_ILLEGAL` (R60). -/
theorem accept_of_illegal {w : CmdWord} {e : Illegal} (h : decode w = .error e) (s : State) :
    accept w s = .next (s.raise .illegal) := by
  simp only [accept, h]

/-- With nothing in flight, raising a status only adds its response (R132). -/
theorem raise_of_free {s : State} (h : s.flight = none) (st : Status) :
    s.raise st = { s with responses := s.responses ++ [⟨st, false, 0⟩] } := by
  simp only [raise_eq, State.finish, h]

/-- A table word's command is the one its 64-bit word decodes to. -/
theorem decode_of_decodeTableWord {nbits w : Nat} {i : Instr} (h : decodeTableWord nbits w = some i) :
    decode (tableWord nbits w) = .ok i := by
  unfold decodeTableWord at h
  split at h
  case h_1 j hd => rw [hd, Option.some.inj h]
  case h_2 => cases h

/-- Settles O9: both states have the word on a free port, which accepts it and performs its command. -/
theorem stepRunsTheDecodedCommand : Obligations.StepRunsTheDecodedCommand := by
  refine ⟨fun s w later i hhost hflight hd => ?_, fun s nbits w i h => ?_⟩
  · rw [step_of_command hhost hflight, accept_of_decode hd]
    rfl
  · have hd := decode_of_decodeTableWord h
    rw [State.withFetchWord, step_of_command rfl rfl, accept_of_decode hd]
    rfl

/-! ### Illegal words -/

/-- A command is refused exactly when a must-be-zero bit is not 0 (R66, step 2). -/
theorem exists_acceptIf_error (op : BitVec 4) (mbz : Bool) (i : Instr) :
    (∃ e, acceptIf op mbz i = .error e) ↔ mbz = false := by
  cases mbz <;> simp [acceptIf]

/-- Settles O5: the illegal words are those the decoder refuses, opcode by opcode, and a refused word is answered with
`ST_ILLEGAL` alone. -/
theorem illegalWordsRefusedWithoutEffect : Obligations.IllegalWordsRefusedWithoutEffect := by
  intro w op illegal
  have hillegal : illegal ↔ ∃ e, decode w = .error e := by
    simp only [decode]
    split
    case h_10 =>
      have hlt : (bitsAt w 60 4).toNat < 16 := (bitsAt w 60 4).isLt
      have hreserved : op ∈ [0x0, 0x7, 0xB, 0xC, 0xD, 0xE, 0xF] := by
        show (bitsAt w 60 4).toNat ∈ _
        simp only [imp_false, List.mem_cons, List.not_mem_nil, or_false] at *
        omega
      simp [illegal, hreserved]
    all_goals
      rename_i hop
      replace hop : op = _ := hop
      simp [illegal, hop, exists_acceptIf_error, zeroAt, bitsAt, imp_iff_not_or]
  refine ⟨fun h s later hhost hflight => ?_, fun h => ?_⟩
  · obtain ⟨e, he⟩ := hillegal.mp h
    have hfree : (s.takeHost later).flight = none := hflight
    rw [step_of_command hhost hflight, accept_of_illegal he, raise_of_free hfree]
    rfl
  · cases hd : decode w with
    | ok i => exact ⟨i, rfl⟩
    | error e => exact absurd (hillegal.mpr ⟨e, hd⟩) h

/-! ### What a response can be -/

/-- The statuses a failed check raises; `ST_OPERAND` is raised for a reserved operand code only (R61, R134). -/
theorem check_status {i : Instr} {s : State} {st : Status} (h : (commandOf i).check s = some st) :
    (st = .operand ∧ i.WellFormed = false) ∨ st = .noCal ∨ st = .badState := by
  rw [commandOf_check] at h
  split_ifs at h with hwf
  all_goals obtain rfl := Option.some.inj h
  · exact .inl ⟨rfl, hwf⟩
  · exact .inr (.inl rfl)
  · exact .inr (.inr rfl)

/-- The statuses a failed phase raises (R136, R137). -/
theorem failStatus_cases (i : Instr) (k : Nat) :
    (commandOf i).failStatus k = .bus ∨ (commandOf i).failStatus k = .busPartial := by
  rw [commandOf_failStatus]
  split
  · split_ifs
    · exact .inl rfl
    · exact .inr rfl
  · exact .inl rfl

/-- Two logs that add one response each to the same log add the same response. -/
theorem response_unique {log : List Response} {q r : Response} (h : log ++ [q] = log ++ [r]) : q = r :=
  List.singleton_inj.mp (List.append_cancel_left h)

/-- A response has a status other than `ST_OK` and an empty payload, where `ST_OPERAND` takes a reserved code, or it has
`ST_OK` and is the response of the command's commit (R57, R132). -/
theorem exec_response_empty_or_commit {i : Instr} {s t : State} {r : Response} (he : exec i s = .next t)
    (hr : t.responses = s.responses ++ [r]) :
    (r.status ≠ .ok ∧ (r.status = .operand → i.WellFormed = false) ∧ r.res = 0 ∧ r.ovf = false) ∨
    (r.status = .ok ∧ ∃ bytes u, u.responses = s.responses ∧ t = (commandOf i).commit bytes u) := by
  rcases exec_response he hr with ⟨st, hc, -, rfl⟩ | ⟨-, k, q, l, phases, -, rfl, -⟩ | ⟨-, as, l, -, -, rfl⟩
  · rcases check_status hc with ⟨rfl, hwf⟩ | rfl | rfl <;> simp [*]
  · rcases failStatus_cases i k with h | h <;> simp [h]
  · obtain ⟨ovf, res, hresp, -⟩ :=
      commit_responds i (deliveredBytes (ruledRequests i) as) (s.afterPhases (ruledRequests i) as l)
    obtain rfl := response_unique (hresp.symm.trans hr)
    exact .inr ⟨rfl, _, s.afterPhases (ruledRequests i) as l, rfl, rfl⟩

/-! ### Reserved operand codes -/

/-- A command with a reserved operand code is refused, whatever the state (R61, R134). -/
theorem exec_of_not_wellFormed {i : Instr} (h : i.WellFormed = false) (s : State) :
    exec i s = .next (s.refusedWith .operand) := by
  have hc : (commandOf i).check s = some .operand := by rw [commandOf_check, if_pos h]
  rw [exec_eq_run, Command.run, hc, ← raise_refusedWith]

/-- A command without a reserved operand code is never refused with `ST_OPERAND` (R61). -/
theorem exec_ne_operand_of_wellFormed {i : Instr} (h : i.WellFormed = true) (s : State) :
    exec i s ≠ .next (s.refusedWith .operand) := by
  intro he
  rcases exec_response_empty_or_commit he rfl with ⟨-, hwf, -⟩ | ⟨hok, -⟩
  · exact absurd (h.symm.trans (hwf rfl)) (by decide)
  · cases hok

/-- Filter codes 5 to 7 are reserved (R61, R64). -/
theorem filterDefined_eq_false :
    ∀ filter : BitVec 3, filter.toNat ∈ [5, 6, 7] → Instr.filterDefined filter = false := by
  decide

/-- Oversampling codes 6 and 7 are reserved (R61, R65). -/
theorem oversamplingDefined_eq_false :
    ∀ osrs : BitVec 3, osrs.toNat ∈ [6, 7] → Instr.oversamplingDefined osrs = false := by
  decide

/-- A reserved code in any of START's four fields makes the command ill-formed (R61). -/
theorem start_not_wellFormed {osrsH osrsT osrsP : BitVec 3} {mode : BitVec 2}
    (h : mode = 2 ∨ osrsH.toNat ∈ [6, 7] ∨ osrsT.toNat ∈ [6, 7] ∨ osrsP.toNat ∈ [6, 7]) :
    (Instr.start osrsH osrsT osrsP mode).WellFormed = false := by
  rcases h with rfl | h | h | h
  · simp [Instr.WellFormed, Instr.modeDefined]
  all_goals simp [Instr.WellFormed, oversamplingDefined_eq_false _ h]

/-- Settles O6: the reserved codes are those that make a command ill-formed, and only such a command is refused with
`ST_OPERAND`. -/
theorem reservedCodesRefusedWithoutEffect : Obligations.ReservedCodesRefusedWithoutEffect :=
  ⟨fun s period filter h => exec_of_not_wellFormed (i := .configure period filter) (filterDefined_eq_false _ h) s,
    fun s _ _ _ _ h => exec_of_not_wellFormed (start_not_wellFormed h) s,
    fun s period filter h => exec_ne_operand_of_wellFormed (i := .configure period filter) (decide_eq_true h) s⟩

/-! ### One response for each accepted word -/

/-- The step from `s` to `t` on behalf of a command leaves the host's presented words alone, and either gives the command's
one response and frees the port, or gives none and leaves the command in flight (R53). -/
def EndsOrWaits (s t : State) : Prop :=
  t.host = s.host ∧
    ((t.flight = none ∧ ∃ r, t.responses = s.responses ++ [r]) ∨ (t.flight ≠ none ∧ t.responses = s.responses))

/-- A response ends the command (R53). -/
theorem endsOrWaits_finish (s : State) (r : Response) : EndsOrWaits s (s.finish r) := ⟨rfl, .inl ⟨rfl, r, rfl⟩⟩

/-- Issuing phases, from whichever phase, ends the command or leaves it waiting (R23, R53). -/
theorem issue_endsOrWaits (i : Instr) (rs : List Request) (k : Nat) (staged : List Byte) (s : State) :
    EndsOrWaits s ((commandOf i).issue rs k staged s) := by
  rcases issue_cases (commandOf i) rs k staged s with
    ⟨as, l, -, -, he⟩ | ⟨d, r, rest, as, a, l, -, -, -, -, he⟩ | ⟨d, r, rest, as, tail, l, -, -, -, -, he⟩
  · obtain ⟨ovf, res, hresp, hflight, hhost, -⟩ :=
      commit_responds i (staged ++ deliveredBytes rs as) (s.afterPhases rs as l)
    rw [he]
    exact ⟨hhost, .inl ⟨hflight, _, hresp⟩⟩
  · rw [he]
    exact ⟨rfl, .inl ⟨rfl, _, rfl⟩⟩
  · rw [he]
    exact ⟨rfl, .inr ⟨Option.some_ne_none _, rfl⟩⟩

/-- A command that is refused ends, and one that is accepted ends or waits (R53, R134). -/
theorem run_endsOrWaits (i : Instr) (s : State) : EndsOrWaits s ((commandOf i).run s) := by
  rcases run_cases i s with ⟨-, hrun⟩ | ⟨st, -, -, hrun⟩
  · rw [hrun]
    exact issue_endsOrWaits i _ 0 [] s
  · rw [hrun]
    exact endsOrWaits_finish s _

/-- Accepting a word, illegal words included, ends or leaves its command waiting (R53, R60). -/
theorem accept_endsOrWaits (w : CmdWord) (s : State) : ∃ t, accept w s = .next t ∧ EndsOrWaits s t := by
  cases hd : decode w with
  | ok i => exact ⟨_, by rw [accept_of_decode hd, exec_eq_run], run_endsOrWaits i s⟩
  | error e => exact ⟨_, accept_of_illegal hd s, endsOrWaits_finish s _⟩

/-- Settles O10: with a command in flight the step goes on with it; with the port free it accepts the presented word. -/
theorem oneResponsePerAcceptedWord : Obligations.OneResponsePerAcceptedWord := by
  intro s hreset hwork
  cases hflight : s.flight with
  | some f =>
    obtain ⟨hhost, hend⟩ := issue_endsOrWaits f.cmd ((commandOf f.cmd).requests.drop f.phase) f.phase f.staged s
    exact ⟨_, step_of_inFlight hflight hreset, fun _ => hhost, fun h => (nomatch h), hend⟩
  | none =>
    match hhost : s.host with
    | [] => exact absurd hwork (by simp [hhost, hflight])
    | .reset :: later => exact absurd ⟨later, hhost⟩ hreset
    | .command w :: later =>
      obtain ⟨t, ht, hhost', hend⟩ := accept_endsOrWaits w (s.takeHost later)
      have hstep : step s = .next t := (step_of_command hhost hflight).trans ht
      exact ⟨t, hstep, fun h => absurd rfl h, fun _ => ⟨w, later, rfl, hhost'⟩, hend⟩

/-! ### Payloads -/

/-- A 1-bit answer leaves the bits above bit 0 at 0 (R59). -/
theorem bitPayload_le_one (b : Bool) : (bitPayload b).toNat ≤ 1 := by
  cases b <;> decide

/-- A 32-bit payload leaves the upper half of `res` at 0 (R59). -/
theorem zeroExtend_high (x : BitVec 32) : (x.zeroExtend 64).extractLsb' 32 32 = 0#32 := by
  have hx := x.isLt
  apply BitVec.eq_of_toNat_eq
  simp [Nat.shiftRight_eq_div_pow]
  omega

/-- READ_SAMPLE's payload leaves the top byte of `res` at 0 (R59). -/
theorem samplePayload_high (t0 t1 t2 p0 p1 p2 h0 h1 : Byte) :
    (samplePayload (assemble20 t0 t1 t2) (assemble20 p0 p1 p2) (assemble16 h0 h1)).extractLsb' 56 8 = 0#8 := by
  rw [samplePayload_eq, BitVec.extractLsb'_append_eq_of_le (by decide), BitVec.extractLsb'_append_eq_of_le (by decide),
    BitVec.extractLsb'_append_eq_of_le (by decide)]
  rfl

/-- Settles O25: a refused or failed command has an empty payload, and a committed one the payload of its commit. -/
theorem responsePayloadLayout : Obligations.ResponsePayloadLayout := by
  intro i s t r he hr
  rcases exec_response_empty_or_commit he hr with ⟨hst, -, hres, hovf⟩ | ⟨hok, bytes, u, hu, rfl⟩
  · refine ⟨fun _ => ⟨hres, hovf⟩, ?_⟩
    cases i <;> simp [hres, hovf, hst]
  · refine ⟨fun h => absurd hok h, ?_⟩
    rw [← hu] at hr
    cases i with
    | probe | isBusy =>
      obtain rfl := response_unique hr
      exact ⟨rfl, bitPayload_le_one _⟩
    | loadCal =>
      obtain rfl := response_unique hr
      exact ⟨rfl, fun _ => rfl⟩
    | configure _ _ | start _ _ _ _ =>
      obtain rfl := response_unique hr
      exact ⟨rfl, rfl⟩
    | readSample =>
      obtain rfl := response_unique hr
      exact ⟨rfl, samplePayload_high _ _ _ _ _ _ _ _⟩
    | compT _ => trivial
    | compP _ _ | compH _ _ =>
      obtain rfl := response_unique hr
      exact zeroExtend_high _

end Sys2Proof.Machine
end

section
/-! SUPPORT. Calibration (40_calibration.md): a LOAD_CAL whose phases all succeed and one whose phase fails, the constants
of the 24-byte block and the 8 bytes after it, and the two injectivity facts behind R84: of a step of FNV-1a and of the
image. -/

namespace Sys2Proof.Machine

/-! ### LOAD_CAL -/

/-- LOAD_CAL has no preconditions (R71). -/
theorem loadCal_accepted (s : State) : Accepted .loadCal s := ⟨rfl, fun h => (nomatch h), rfl⟩

/-- A LOAD_CAL whose phases all succeed: the whole next state, by the bytes they delivered (R82). -/
theorem exec_loadCal_of_allSucceed {s : State} {as : List Answer} {later : List BusEvent} {bytes : List Byte}
    (h : AllSucceed (ruledRequests .loadCal) as) (hbus : s.bus = answersThen as later)
    (hbytes : deliveredBytes (ruledRequests .loadCal) as = bytes) :
    exec .loadCal s = .next
      { s.ended later (answeredPhases (ruledRequests .loadCal) as)
          ⟨.ok, false, (fnv1a (hashImage bytes)).zeroExtend 64⟩ with
        cal := unpack bytes
        calValid := true
        identity := fnv1a (hashImage bytes) } := by
  rw [exec_all_succeed as later (loadCal_accepted s) h hbus, hbytes]
  rfl

/-- Settles O34: the phases end at the failed one, which raises `ST_BUS` whatever its index. -/
theorem failedLoadCalPublishesNothing : Obligations.FailedLoadCalPublishesNothing := by
  intro s done rest r as a later hreq hdone hfail hbus
  replace hreq : ruledRequests .loadCal = done ++ r :: rest := hreq
  rw [exec_of_accepted (loadCal_accepted s), hreq, issue_first_failure later _ done rest as 0 [] s r a hdone hfail hbus,
    raise_afterPhases, commandOf_failStatus]

/-- Settles O36: what a successful load publishes is a function of the bytes delivered. -/
theorem loadCalIsIdempotent : Obligations.LoadCalIsIdempotent := by
  intro s s' t t' as later later' has hbus hbus' he he'
  obtain rfl := Host.Outcome.next.inj ((exec_loadCal_of_allSucceed has hbus rfl).symm.trans he)
  obtain rfl := Host.Outcome.next.inj ((exec_loadCal_of_allSucceed has hbus' rfl).symm.trans he')
  refine ⟨rfl, rfl, rfl, ?_⟩
  simp [State.ended]

/-! ### The bytes read -/

/-- A little-endian quantity inside the 24-byte block (R73). -/
theorem littleEndian_head (tp rest : List Byte) (k : Nat) (h : k + 1 < tp.length) :
    littleEndian (tp ++ rest) k = littleEndian tp k := by
  rw [littleEndian, byteAt_head tp rest (k + 1) h, byteAt_head tp rest k (by omega), littleEndian]

/-- A little-endian quantity after the 24-byte block (R76). -/
theorem littleEndian_tail (tp rest : List Byte) (k : Nat) (h : tp.length = 24) :
    littleEndian (tp ++ rest) (24 + k) = littleEndian rest k := by
  rw [littleEndian, Nat.add_assoc, byteAt_tail tp rest (k + 1) h, byteAt_tail tp rest k h, littleEndian]

/-- The constants of the 24-byte block `tp` and of the 8 bytes read after it (R73 to R79). -/
theorem unpack_append (tp : List Byte) (h1 b0 b1 b2 b3 b4 b5 b6 : Byte) (h : tp.length = 24) :
    unpack (tp ++ [h1, b0, b1, b2, b3, b4, b5, b6])
      = { T1 := littleEndian tp 0, T2 := littleEndian tp 2, T3 := littleEndian tp 4
          P1 := littleEndian tp 6, P2 := littleEndian tp 8, P3 := littleEndian tp 10, P4 := littleEndian tp 12
          P5 := littleEndian tp 14, P6 := littleEndian tp 16, P7 := littleEndian tp 18, P8 := littleEndian tp 20
          P9 := littleEndian tp 22
          H1 := h1, H2 := b1 ++ b0, H3 := b2
          H4 := 0#4 ++ b3 ++ b4.extractLsb' 0 4
          H5 := 0#4 ++ b5 ++ b4.extractLsb' 4 4
          H6 := b6 } := by
  have head (k : Nat) (hk : k < 23) := littleEndian_head tp [h1, b0, b1, b2, b3, b4, b5, b6] k (by omega)
  have tail (k : Nat) := byteAt_tail tp [h1, b0, b1, b2, b3, b4, b5, b6] k h
  have hH2 := littleEndian_tail tp [h1, b0, b1, b2, b3, b4, b5, b6] 1 h
  rw [← unpackH4_eq, ← unpackH5_eq]
  simp only [unpack, Calibration.mk.injEq]
  exact ⟨head 0 (by decide), head 2 (by decide), head 4 (by decide), head 6 (by decide), head 8 (by decide),
    head 10 (by decide), head 12 (by decide), head 14 (by decide), head 16 (by decide), head 18 (by decide),
    head 20 (by decide), head 22 (by decide), tail 0, hH2, tail 3, congrArg₂ unpackH4 (tail 4) (tail 5),
    congrArg₂ unpackH5 (tail 5) (tail 6), tail 7⟩

/-- Settles O33: the next state by the bytes delivered, with the constants and the image of those bytes written out. -/
theorem loadCalPublishesConstantsAndIdentity : Obligations.LoadCalPublishesConstantsAndIdentity := by
  intro s x1 x2 x3 tp h1 b0 b1 b2 b3 b4 b5 b6 later htp hbus raw16 image identity
  have has : AllSucceed (ruledRequests .loadCal) [⟨true, x1⟩, ⟨true, tp⟩, ⟨true, x2⟩, ⟨true, [h1]⟩, ⟨true, x3⟩,
      ⟨true, [b0, b1, b2, b3, b4, b5, b6]⟩] := by
    simp [ruledRequests, AllSucceed, Answer.succeeds, htp]
  have hidentity : fnv1a (hashImage (tp ++ [h1, b0, b1, b2, b3, b4, b5, b6])) = identity :=
    congrArg fnv1a (hashImage_eq tp h1 b0 b1 b2 b3 b4 b5 b6 htp)
  have hres : identity.zeroExtend 64 = 0#32 ++ identity := BitVec.setWidth_eq_append (by decide)
  rw [exec_loadCal_of_allSucceed (bytes := tp ++ [h1, b0, b1, b2, b3, b4, b5, b6]) has hbus rfl, hidentity, hres,
    unpack_append tp h1 b0 b1 b2 b3 b4 b5 b6 htp]
  rfl

/-! ### The hash -/

/-- The FNV prime is odd, so it has an inverse modulo 2^32 (R84). -/
theorem isUnit_fnvPrime : IsUnit fnvPrime := IsUnit.of_mul_eq_one 0x359c449b#32 (by decide)

/-- A step of FNV-1a with the same byte keeps different hashes apart (R84). -/
theorem fnvStep_injective (byte : Byte) : Function.Injective (fnvStep · byte) :=
  fun _ _ h => (BitVec.xor_left_inj _).mp (isUnit_fnvPrime.mul_right_cancel h)

/-- A step of FNV-1a from the same hash keeps different bytes apart (R84). -/
theorem fnvStep_byte_injective (hash : BitVec 32) : Function.Injective (fnvStep hash) := by
  intro x y h
  have hwide : x.zeroExtend 32 = y.zeroExtend 32 := (BitVec.xor_right_inj hash).mp (isUnit_fnvPrime.mul_right_cancel h)
  simpa using congrArg (BitVec.setWidth 8) hwide

/-- Hashing the same bytes from different hashes keeps them different (R84). -/
theorem foldl_fnvStep_injective (bytes : List Byte) : Function.Injective (bytes.foldl fnvStep) := by
  induction bytes with
  | nil => exact fun _ _ h => h
  | cons byte bytes ih => exact ih.comp (fnvStep_injective byte)

/-- Settles O37: the hashes differ after the one byte, and the equal bytes after it keep them apart. -/
theorem identitySeesEverySingleByte : Obligations.IdentitySeesEverySingleByte := by
  intro before after x y hne h
  simp only [fnv1a, List.foldl_append, List.foldl_cons] at h
  exact hne (fnvStep_byte_injective _ (foldl_fnvStep_injective after h))

/-! ### The image -/

/-- Two fields side by side determine the fields. -/
theorem fields_eq_of_append_eq {m n : Nat} {x x' : BitVec m} {y y' : BitVec n} (h : x ++ y = x' ++ y') :
    x = x' ∧ y = y' := by
  refine ⟨?_, ?_⟩
  · simpa only [BitVec.extractLsb'_append_eq_left] using congrArg (BitVec.extractLsb' n m) h
  · simpa only [BitVec.extractLsb'_append_eq_right] using congrArg (BitVec.extractLsb' 0 n) h

/-- A byte is its two nibbles. -/
theorem eq_of_nibbles_eq {x y : Byte} (hlow : x.extractLsb' 0 4 = y.extractLsb' 0 4)
    (hhigh : x.extractLsb' 4 4 = y.extractLsb' 4 4) : x = y := by
  have whole (b : Byte) : b.extractLsb' 4 4 ++ b.extractLsb' 0 4 = b := BitVec.extractLsb'_append_extractLsb'
  rw [← whole x, ← whole y, hlow, hhigh]

/-- The 32 bytes LOAD_CAL reads are the 24-byte block and 8 bytes (R72). -/
theorem exists_block_and_tail {bytes : List Byte} (h : bytes.length = 32) :
    ∃ tp h1 b0 b1 b2 b3 b4 b5 b6, tp.length = 24 ∧ bytes = tp ++ [h1, b0, b1, b2, b3, b4, b5, b6] := by
  have htail : (bytes.drop 24).length = 8 := by simp [h]
  match hd : bytes.drop 24, htail with
  | [h1, b0, b1, b2, b3, b4, b5, b6], _ =>
    exact ⟨bytes.take 24, h1, b0, b1, b2, b3, b4, b5, b6, by simp [h], by rw [← hd, List.take_append_drop]⟩

/-- Settles O38: the image holds each byte whole, or as two nibbles. -/
theorem imageDeterminesTheBytesRead : Obligations.ImageDeterminesTheBytesRead := by
  intro x y hx hy h
  obtain ⟨tp, h1, b0, b1, b2, b3, b4, b5, b6, htp, rfl⟩ := exists_block_and_tail hx
  obtain ⟨tp', h1', b0', b1', b2', b3', b4', b5', b6', htp', rfl⟩ := exists_block_and_tail hy
  rw [hashImage_eq _ _ _ _ _ _ _ _ _ htp, hashImage_eq _ _ _ _ _ _ _ _ _ htp'] at h
  obtain ⟨rfl, htail⟩ := List.append_inj h (htp.trans htp'.symm)
  simp only [List.cons.injEq, and_true] at htail
  obtain ⟨rfl, rfl, rfl, rfl, hH4low, hH4high, hH5low, hH5high, rfl⟩ := htail
  obtain ⟨hb3low, hb4low⟩ := fields_eq_of_append_eq hH4low
  obtain ⟨hb5low, hb4high⟩ := fields_eq_of_append_eq hH5low
  obtain rfl := eq_of_nibbles_eq hb3low (fields_eq_of_append_eq hH4high).2
  obtain rfl := eq_of_nibbles_eq hb4low hb4high
  obtain rfl := eq_of_nibbles_eq hb5low (fields_eq_of_append_eq hH5high).2
  rfl

end Sys2Proof.Machine
end

section
/-! SUPPORT. The sequencer (41_sequencer.md): the table of R85 as a function, the edges it allows, refusals before any
phase, and the next states of PROBE, CONFIGURE, START, IS_BUSY and READ_SAMPLE. -/

namespace Sys2Proof.Machine

/-! ### The table of R85 -/

/-- The cell of R85 for a command that completes with `ST_OK`: the next `SEQ`, which depends on the bytes read for IS_BUSY
only (R91). -/
def seqAfter (i : Instr) (bytes : List Byte) (q : SeqState) : SeqState :=
  match i with
  | .configure _ _ => .configured
  | .start _ _ _ _ => .measuring
  | .isBusy => seqAfterPoll q (busyOf (byteAt bytes 0))
  | .probe | .loadCal | .readSample | .compT _ | .compP _ _ | .compH _ _ => q

/-- Every commit moves `SEQ` as the table says. -/
theorem commit_seq (i : Instr) (bytes : List Byte) (s : State) :
    ((commandOf i).commit bytes s).seq = seqAfter i bytes s.seq := by
  cases i <;> rfl

/-- The edges of R85, staying included. -/
def SeqEdge (q q' : SeqState) : Prop :=
  q' = q ∨ (q = .uninitialized ∧ q' = .configured) ∨
    ((q = .configured ∨ q = .idle) ∧ q' = .measuring) ∨ (q = .measuring ∧ q' = .idle)

/-- A poll moves `SEQ` between Idle and Measuring only (R91). -/
theorem seqAfterPoll_edge (q : SeqState) (busy : Bool) : SeqEdge q (seqAfterPoll q busy) := by
  cases q <;> cases busy <;> simp [seqAfterPoll, SeqEdge]

/-- From a state the command is admitted in, the table moves `SEQ` along an edge. -/
theorem seqAfter_edge {i : Instr} {q : SeqState} (h : admitted i q = true) (bytes : List Byte) :
    SeqEdge q (seqAfter i bytes q) := by
  cases i with
  | configure _ _ => exact .inr (.inl ⟨by simpa [admitted] using h, rfl⟩)
  | start _ _ _ _ => exact .inr (.inr (.inl ⟨by simpa [admitted] using h, rfl⟩))
  | isBusy => exact seqAfterPoll_edge q _
  | probe | loadCal | readSample | compT _ | compP _ _ | compH _ _ => exact .inl rfl

/-- The poll's move as conditions on `SEQ` and `busy` (R91). -/
theorem seqAfterPoll_eq (q : SeqState) (busy : Bool) :
    seqAfterPoll q busy
      = if q = .measuring ∧ busy = false then .idle else if q = .idle ∧ busy = true then .measuring else q := by
  cases q <;> cases busy <;> rfl

/-! ### Completing with `ST_OK`, and the edges over whole steps -/

/-- A response has a status other than `ST_OK` and leaves the registers as they were, or it has `ST_OK` and is that of an
accepted command's commit, after phases that touched no register (R85, R132). -/
theorem exec_response_keeps_or_commits {i : Instr} {s t : State} {r : Response} (he : exec i s = .next t)
    (hr : t.responses = s.responses ++ [r]) :
    (r.status ≠ .ok ∧ SameRegisters s t) ∨
    (r.status = .ok ∧ Accepted i s ∧ ∃ bytes u, SameRegisters s u ∧ u.responses = s.responses ∧
      t = (commandOf i).commit bytes u) := by
  rcases exec_response he hr with
    ⟨st, hc, rfl, rfl⟩ | ⟨-, k, q, l, phases, -, rfl, rfl⟩ | ⟨hacc, as, l, -, -, rfl⟩
  · refine .inl ⟨?_, rfl, rfl, rfl, rfl⟩
    rcases check_status hc with ⟨rfl, -⟩ | rfl | rfl <;> exact nofun
  · refine .inl ⟨?_, rfl, rfl, rfl, rfl⟩
    rcases failStatus_cases i k with h | h <;> simp [h]
  · obtain ⟨ovf, res, hresp, -⟩ :=
      commit_responds i (deliveredBytes (ruledRequests i) as) (s.afterPhases (ruledRequests i) as l)
    obtain rfl := response_unique (hresp.symm.trans hr)
    exact .inr ⟨rfl, hacc, _, _, afterPhases_sameRegisters s _ as l, rfl, rfl⟩

/-- A step that commits a command performs an accepted one: the word's command passed its checks in this step, the one in
flight in an earlier step. -/
theorem accepted_of_commits {i : Instr} {bytes : List Byte} {s u : State} (hflight : FlightOk s)
    (hperf : Performs s i) (hresp : u.responses = s.responses)
    (hstep : step s = .next ((commandOf i).commit bytes u)) : Accepted i s := by
  rcases hperf with ⟨f, hf, rfl⟩ | ⟨hfree, w, later, hhost, hd⟩
  · simp only [FlightOk, hf] at hflight
    exact hflight.1
  · rw [step_of_command hhost hfree, accept_of_decode hd] at hstep
    obtain ⟨ovf, res, hr, -⟩ := commit_responds i bytes u
    rw [hresp] at hr
    rcases exec_response_keeps_or_commits hstep hr with ⟨hne, -⟩ | ⟨-, hacc, -⟩
    · exact absurd rfl hne
    · exact hacc

/-- Settles O32: a step that changes a register commits an accepted command, which moves `SEQ` along an edge. -/
theorem seqEdgesOfAStep : Obligations.SeqEdgesOfAStep := by
  intro s t hflight hreset hstep
  rcases step_registers hreset hstep with ⟨-, -, -, hseq⟩ | ⟨i, bytes, u, hperf, ⟨-, -, -, hseq⟩, hresp, rfl⟩
  · exact .inl hseq
  · obtain ⟨-, -, hadm⟩ := accepted_of_commits hflight hperf hresp hstep
    rw [commit_seq, hseq]
    exact seqAfter_edge hadm bytes

/-! ### Refusals before any phase -/

/-- A failed check refuses the command with its status (R132, R134). -/
theorem exec_of_check {i : Instr} {s : State} {st : Status} (h : (commandOf i).check s = some st) :
    exec i s = .next (s.refusedWith st) := by
  rw [exec_eq_run, Command.run, h, ← raise_refusedWith]

/-- A command that needs calibration is refused without it (R134, R138). -/
theorem exec_of_not_calValid {i : Instr} {s : State} (hwf : i.WellFormed = true) (hneeds : needsCal i = true)
    (hvalid : s.calValid = false) : exec i s = .next (s.refusedWith .noCal) := by
  refine exec_of_check ?_
  rw [commandOf_check, if_neg (by simp [hwf]), if_pos ⟨hneeds, hvalid⟩]

/-- A command is refused in a state it is not admitted in (R85, R134, R139). -/
theorem exec_of_not_admitted {i : Instr} {s : State} (hwf : i.WellFormed = true)
    (hcal : needsCal i = true → s.calValid = true) (hadm : admitted i s.seq = false) :
    exec i s = .next (s.refusedWith .badState) := by
  refine exec_of_check ?_
  rw [commandOf_check, if_neg (by simp [hwf]), if_neg (by simpa using hcal), if_pos hadm]

/-! ### Payloads -/

/-- The payload of a 1-bit answer is 1 or 0 (R59). -/
theorem bitPayload_eq (b : Bool) : bitPayload b = if b then 1 else 0 := by
  cases b <;> rfl

/-- A poll's move, read off the response: its payload is 1 exactly when the device is busy (R90, R91). -/
theorem seqAfterPoll_eq_of_bitPayload (q : SeqState) (busy : Bool) :
    seqAfterPoll q busy
      = match q with
        | .uninitialized => .uninitialized
        | .configured => .configured
        | .idle => if bitPayload busy = 1 then .measuring else .idle
        | .measuring => if bitPayload busy = 1 then .measuring else .idle := by
  cases q <;> cases busy <;> rfl

/-- Settles O31: a cell marked refused is a state the command is not admitted in, and a commit moves `SEQ` by the table. -/
theorem seqMovesAsTabled : Obligations.SeqMovesAsTabled := by
  refine ⟨fun i s hwf hvalid hcell => exec_of_not_admitted hwf (fun _ => hvalid) ?_, fun i s t r he hr => ?_⟩
  · rcases hcell with ⟨⟨_, _, rfl⟩, hseq⟩ | ⟨⟨_, _, _, _, rfl⟩, hseq | hseq⟩ <;> simp [admitted, hseq]
  rcases exec_response_keeps_or_commits he hr with ⟨hne, -, -, -, hseq⟩ | ⟨hok, hacc, bytes, u, hsame, hresp, rfl⟩
  · exact ⟨fun _ => hseq, fun hok => absurd hok hne⟩
  refine ⟨fun hne => absurd hok hne, fun _ => ?_⟩
  obtain ⟨-, -, hadm⟩ := hacc
  obtain ⟨-, -, -, hseq⟩ := hsame
  rw [commit_seq, hseq]
  cases i with
  | configure _ _ => exact ⟨by simpa [admitted] using hadm, rfl⟩
  | start _ _ _ _ => exact ⟨by simpa [admitted] using hadm, rfl⟩
  | isBusy =>
    obtain rfl := response_unique (show u.responses ++ [_] = u.responses ++ [r] from hr.trans (by rw [hresp]))
    exact seqAfterPoll_eq_of_bitPayload _ _
  | probe | loadCal | readSample | compT _ | compP _ _ | compH _ _ => rfl

/-! ### No preconditions and one read: PROBE and IS_BUSY -/

/-- A command without preconditions is accepted in every state (R86, R90, R92). -/
theorem accepted_of_no_preconditions {i : Instr} (hwf : i.WellFormed = true) (hneeds : needsCal i = false)
    (hadm : ∀ q, admitted i q = true) (s : State) : Accepted i s :=
  ⟨hwf, fun h => absurd (hneeds.symm.trans h) Bool.false_ne_true, hadm s.seq⟩

/-- The two ways a command of one read fails: its SEL fails, or its RD is not answered with exactly `n` bytes (R33, R36,
R136). -/
theorem exec_memRead_failure {i : Instr} {reg : Byte} {n : Nat} {s : State} (hreq : ruledRequests i = memRead reg n)
    (hacc : Accepted i s) (x : List Byte) (later : List BusEvent) :
    (∀ a : Answer, a.ok = false → s.bus = .answer a :: later →
      exec i s = .next (s.ended later [⟨.sel reg, some a⟩] ⟨.bus, false, 0⟩)) ∧
    (∀ a : Answer, a.ok = false ∨ a.bytes.length ≠ n → s.bus = .answer ⟨true, x⟩ :: .answer a :: later →
      exec i s = .next (s.ended later [⟨.sel reg, some ⟨true, x⟩⟩, ⟨.rd n, some a⟩] ⟨.bus, false, 0⟩)) := by
  refine ⟨fun a ha hbus => ?_, fun a ha hbus => ?_⟩
  · exact firstFailedPhaseEndsCommand i s [] [.rd n] (.sel reg) [] a later hacc hreq trivial ha hbus
  · have hfail : a.succeeds (.rd n) = false := by
      rcases ha with ha | ha <;> simp [Answer.succeeds, ha]
    exact firstFailedPhaseEndsCommand i s [.sel reg] [] (.rd n) [⟨true, x⟩] a later hacc hreq ⟨rfl, trivial⟩ hfail hbus

/-- Settles O26: PROBE is one read, answered by comparing the byte. -/
theorem probeAnswersPresence : Obligations.ProbeAnswersPresence := by
  refine ⟨decode_encode .probe, fun s x later => ?_⟩
  have hacc : Accepted .probe s := accepted_of_no_preconditions rfl rfl (fun _ => rfl) s
  refine ⟨fun id hbus => ?_, exec_memRead_failure rfl hacc x later⟩
  have hres : bitPayload (id == chipId) = if id = 0x60 then 1 else 0 := by
    simp [bitPayload_eq, chipId]
  rw [exec_all_succeed [⟨true, x⟩, ⟨true, [id]⟩] later hacc ⟨rfl, rfl, trivial⟩ hbus, ← hres]
  rfl

/-- Settles O29: IS_BUSY is one read, whose byte gives the answer and the move of `SEQ`. -/
theorem isBusyReportsAndMovesSeq : Obligations.IsBusyReportsAndMovesSeq := by
  refine ⟨decode_encode .isBusy, fun s x later => ?_⟩
  have hacc : Accepted .isBusy s := accepted_of_no_preconditions rfl rfl (fun _ => rfl) s
  refine ⟨fun st hbus => ?_, exec_memRead_failure rfl hacc x later⟩
  intro busy
  rw [exec_all_succeed [⟨true, x⟩, ⟨true, [st]⟩] later hacc ⟨rfl, rfl, trivial⟩ hbus, ← seqAfterPoll_eq,
    ← bitPayload_eq, show busy = busyOf st from (busyOf_eq st).symm]
  rfl

/-! ### CONFIGURE -/

/-- Settles O27: the checks of R134, then one write that ends the command either way. -/
theorem configureWritesFilterAndPeriod : Obligations.ConfigureWritesFilterAndPeriod := by
  intro s period filter
  refine ⟨decode_encode (.configure period filter), fun h => ?_, fun h => ?_⟩
  · exact exec_of_not_wellFormed (i := .configure period filter) (decide_eq_false (by omega)) s
  have hwf : (Instr.configure period filter).WellFormed = true := decide_eq_true h
  refine ⟨exec_of_not_calValid hwf rfl, fun hvalid hseq => ?_, fun hvalid hseq a later hbus => ?_⟩
  · exact exec_of_not_admitted hwf (fun _ => hvalid) (by simpa [admitted] using hseq)
  have hacc : Accepted (.configure period filter) s := ⟨hwf, fun _ => hvalid, by simp [admitted, hseq]⟩
  cases hok : a.ok with
  | true => exact exec_all_succeed [a] later hacc ⟨hok, trivial⟩ hbus
  | false => exact firstFailedPhaseEndsCommand _ s [] [] _ [] a later hacc rfl trivial hok hbus

/-! ### START -/

/-- START is well formed exactly when none of its codes is reserved (R61, R88). -/
theorem start_wellFormed_iff (osrsH osrsT osrsP : BitVec 3) (mode : BitVec 2) :
    (Instr.start osrsH osrsT osrsP mode).WellFormed = true
      ↔ mode ≠ 2 ∧ osrsT.toNat ≤ 5 ∧ osrsP.toNat ≤ 5 ∧ osrsH.toNat ≤ 5 := by
  have hmode : Instr.modeDefined mode = true ↔ mode ≠ 2 := by revert mode; decide
  simp only [Instr.WellFormed, Instr.oversamplingDefined, Bool.and_eq_true, decide_eq_true_eq, hmode]
  tauto

/-- Settles O28: the checks of R134, then two writes, of which the first or the second ends the command or both succeed. -/
theorem startWritesHumidityFirst : Obligations.StartWritesHumidityFirst := by
  intro s osrsH osrsT osrsP mode i codesOk first second
  have hwf : i.WellFormed = true ↔ codesOk := start_wellFormed_iff osrsH osrsT osrsP mode
  refine ⟨decode_encode i, fun h => ?_, fun h => ?_, fun h hvalid hconf hidle => ?_, fun h hvalid hseq => ?_⟩
  · exact exec_of_not_wellFormed (Bool.eq_false_iff.mpr (mt hwf.mp h)) s
  · exact exec_of_not_calValid (hwf.mpr h) rfl
  · exact exec_of_not_admitted (hwf.mpr h) (fun _ => hvalid) (by simp [admitted, i, hconf, hidle])
  have hacc : Accepted i s := ⟨hwf.mpr h, fun _ => hvalid, by simpa [admitted, i] using hseq⟩
  refine ⟨fun a later ha hbus => ?_, fun a b later ha hbus => ?_⟩
  · exact firstFailedPhaseEndsCommand i s [] [second] first [] a later hacc rfl trivial ha hbus
  cases hb : b.ok with
  | true => exact exec_all_succeed [a, b] later hacc ⟨ha, hb, trivial⟩ hbus
  | false => exact firstFailedPhaseEndsCommand i s [first] [] second [a] b later hacc rfl ⟨ha, trivial⟩ hb hbus

/-! ### READ_SAMPLE -/

/-- Settles O30: the six phases deliver the eight bytes the payload is made of; a response that is not the commit's is that
of a failed phase. -/
theorem readSampleAssemblesBigEndian : Obligations.ReadSampleAssemblesBigEndian := by
  intro s
  have hacc : Accepted .readSample s := accepted_of_no_preconditions rfl rfl (fun _ => rfl) s
  refine ⟨fun x1 x2 x3 t0 t1 t2 p0 p1 p2 h0 h1 later hbus => ?_, fun t r he hr => ?_⟩
  · rw [exec_all_succeed [⟨true, x1⟩, ⟨true, [t0, t1, t2]⟩, ⟨true, x2⟩, ⟨true, [p0, p1, p2]⟩, ⟨true, x3⟩,
      ⟨true, [h0, h1]⟩] later hacc ⟨rfl, rfl, rfl, rfl, rfl, rfl, trivial⟩ hbus, ← samplePayload_eq]
    rfl
  · rcases exec_response he hr with ⟨st, hc, -, -⟩ | ⟨-, k, q, l, phases, -, rfl, rfl⟩ | ⟨-, as, l, -, -, rfl⟩
    · exact absurd (hc.symm.trans ((check_none_iff _ s).mpr hacc)) (Option.some_ne_none st)
    · exact ⟨⟨rfl, rfl, rfl, rfl⟩, .inr (by rw [commandOf_failStatus])⟩
    · obtain rfl := response_unique hr
      exact ⟨⟨rfl, rfl, rfl, rfl⟩, .inl rfl⟩

end Sys2Proof.Machine
end

section
/-! SUPPORT. The compensation pipeline (42_compensation.md): overflow and division (R106 to R109), the certificate of
`ovf` = 0 (R110), the fixed-width datapaths (R105), COMP_T's ranges and overflow sites (R114), the zero guard (R119), the
clamp (R126), and what the three commands have in common (R129). -/

namespace Sys2Proof.Machine

/-! ### Overflow and division -/

/-- `ovf` after narrowing: an operand had it, or the exact result leaves the signed range (R106, R110). -/
theorem narrow_ovf_iff (W : Nat) (e : Int) (o : Bool) :
    (Fx.narrow W e o).ovf = true ↔ o = true ∨ e < -2 ^ (W - 1) ∨ 2 ^ (W - 1) ≤ e := by
  have hrange : fits W e = false ↔ e < -2 ^ (W - 1) ∨ 2 ^ (W - 1) ≤ e := by
    rw [← Bool.not_eq_true, fits_iff]; omega
  rw [Fx.narrow, Bool.or_eq_true, Bool.not_eq_true', hrange]

/-- Settles O54: each operation narrows its exact result, and operands carry no overflow. -/
theorem overflowExactlyOutsideTheRange : Obligations.OverflowExactlyOutsideTheRange := by
  intro W n x y out
  have hout (e : Int) : (Fx.narrow W e false).ovf = true ↔ out e := by simp [narrow_ovf_iff, out]
  exact ⟨rfl, hout _, rfl, hout _, rfl, hout _, rfl, hout _⟩

/-- The truncated quotient of two numbers leaves the range only for the least number divided by -1 (R109). -/
theorem fits_tdiv_iff {W : Nat} {a : Int} (ha : fits W a = true) (b : Int) :
    fits W (a.tdiv b) = true ↔ ¬ (a = -2 ^ (W - 1) ∧ b = -1) := by
  rw [fits_iff] at ha ⊢
  have habs := Int.natAbs_tdiv a b
  have hle := Int.natAbs_tdiv_le_natAbs a b
  rcases lt_trichotomy b (-1) with hb | rfl | hb
  · have hhalf : a.natAbs.div b.natAbs ≤ a.natAbs / 2 := Nat.div_le_div_left (by omega) (by omega)
    omega
  · rw [Int.tdiv_neg, Int.tdiv_one]
    omega
  · have hneg : a ≤ 0 → a.tdiv b ≤ 0 := fun h => by
      have := Int.tdiv_nonneg (a := -a) (b := b) (by omega) (by omega)
      rw [Int.neg_tdiv] at this
      omega
    omega

/-- Truncated division is the quotient of the magnitudes with the product of the signs (R109). -/
theorem tdiv_eq_sign_mul (a b : Int) : a.tdiv b = a.sign * b.sign * (|a| / |b|) := by
  rw [← Int.sign_mul_natAbs (a.tdiv b), Int.sign_tdiv, Int.natAbs_tdiv, Int.abs_eq_natAbs, Int.abs_eq_natAbs]
  split
  case isTrue hlt =>
    have hzero : (a.natAbs : Int) / b.natAbs = 0 := by exact_mod_cast Nat.div_eq_of_lt hlt
    rw [hzero, zero_mul, mul_zero]
  case isFalse => rfl

/-- Settles O55: a right shift is a floor division, and the truncated quotient fits but for one pair of operands. -/
theorem shiftsFloorAndDivisionTruncates : Obligations.ShiftsFloorAndDivisionTruncates := by
  refine ⟨fun a n => ?_, fun a b ha _ _ hne => ?_, by decide⟩
  · have hpos : (0 : Int) < 2 ^ n := by positivity
    exact ⟨Int.ediv_mul_le _ hpos.ne', Int.lt_ediv_add_one_mul_self _ hpos, rfl⟩
  · have hovf : ((Fx.lit a).quot 64 (Fx.lit b)).ovf = false :=
      (narrow_ovf_false _ _ _).mpr ⟨rfl, (fits_tdiv_iff ha b).mpr hne⟩
    exact ⟨(narrow_val (by decide) hovf).trans (tdiv_eq_sign_mul a b), hovf⟩

/-! ### COMP_P's two parts -/

/-- `v2` over the integers (R118), as `exactP` writes it. -/
def exactV2 (c : Calibration) (tFine : BitVec 32) : Int :=
  let v1 := tFine.toInt - 128000
  v1 * v1 * c.P6.toInt + v1 * c.P5.toInt * 2 ^ 17 + c.P4.toInt * 2 ^ 35

/-- The second part over the integers (R120), as `exactP` writes it. -/
def exactQuotient (c : Calibration) (adcP : BitVec 20) (v2 w2 : Int) : Int :=
  let p1 := ((((1048576 - (adcP.toNat : Int)) * 2 ^ 31) - v2) * 3125).tdiv w2
  let s := p1 / 2 ^ 13
  (p1 + c.P9.toInt * s * s / 2 ^ 25 + c.P8.toInt * p1 / 2 ^ 19) / 2 ^ 8 + c.P7.toInt * 2 ^ 4

/-- `exactP` is its two parts and the zero guard (R118 to R120). -/
theorem exactP_eq (p1u : Bool) (c : Calibration) (adcP : BitVec 20) (tFine : BitVec 32) :
    exactP p1u c adcP tFine
      = if exactW2 p1u c tFine = 0 then 0
        else exactQuotient c adcP (exactV2 c tFine) (exactW2 p1u c tFine) := rfl

/-- The zero guard (R119): a zero divisor gives 0 with the overflow of the first part. -/
theorem compensateP_of_zero {W : Nat} {p1u : Bool} {c : Calibration} {tFine : BitVec 32}
    (h : (pressureTerms W p1u c tFine).w2.val = 0) (adcP : BitVec 20) :
    compensateP W p1u c adcP tFine
      = ⟨0, (pressureTerms W p1u c tFine).v2.ovf || (pressureTerms W p1u c tFine).w2.ovf⟩ := if_pos h

/-- Any other divisor reaches the second part (R120). -/
theorem compensateP_of_ne_zero {W : Nat} {p1u : Bool} {c : Calibration} {tFine : BitVec 32}
    (h : (pressureTerms W p1u c tFine).w2.val ≠ 0) (adcP : BitVec 20) :
    compensateP W p1u c adcP tFine = pressureQuotient W c (pressureTerms W p1u c tFine) adcP := if_neg h

/-- The second part keeps the overflow of the first (R110). -/
theorem terms_ovf_of_pressureQuotient {W : Nat} {c : Calibration} {t : PressureTerms} {adcP : BitVec 20}
    (h : (pressureQuotient W c t adcP).ovf = false) : t.v2.ovf = false ∧ t.w2.ovf = false := by
  simp only [pressureQuotient, Fx.add, Fx.sub, Fx.mul, Fx.quot, Fx.shl, narrow_ovf_false, sar_ovf,
    Bool.or_eq_false_iff] at h
  tauto

/-- On either side of the zero guard the result keeps the overflow of the first part (R110, R119). -/
theorem terms_ovf_of_compensateP {W : Nat} {p1u : Bool} {c : Calibration} {adcP : BitVec 20} {tFine : BitVec 32}
    (h : (compensateP W p1u c adcP tFine).ovf = false) :
    (pressureTerms W p1u c tFine).v2.ovf = false ∧ (pressureTerms W p1u c tFine).w2.ovf = false := by
  by_cases hz : (pressureTerms W p1u c tFine).w2.val = 0
  · rw [compensateP_of_zero hz] at h
    exact (Bool.or_eq_false_iff ..).mp h
  · rw [compensateP_of_ne_zero hz] at h
    exact terms_ovf_of_pressureQuotient h

/-! ### The certificate of `ovf` = 0

One rule per operation, then one derivation per command, which follows the lines of its pseudocode. -/

/-- What R110 certifies of a value `a` of the block, the value `a'` of the same line in a wider datapath, and the line's
exact value `e`: without an overflow in `a` all three are one number. -/
def Certified (a a' : Fx) (e : Int) : Prop := a.ovf = false → a = Fx.lit e ∧ a' = Fx.lit e

/-- Operands and constants are exact in every datapath (R111). -/
theorem Certified.lit (x : Int) : Certified (Fx.lit x) (Fx.lit x) x := fun _ => ⟨rfl, rfl⟩

theorem Certified.unsigned {n : Nat} (x : BitVec n) : Certified (unsignedFx x) (unsignedFx x) x.toNat := .lit _

theorem Certified.signed {n : Nat} (x : BitVec n) : Certified (signedFx x) (signedFx x) x.toInt := .lit _

theorem Certified.widenP1 (p1u : Bool) (x : BitVec 16) :
    Certified (widenP1 p1u x) (widenP1 p1u x) (exactP1 p1u x) := by
  cases p1u
  · exact .signed x
  · exact .unsigned x

section Rules

variable {W V : Nat} (hW : 0 < W) (hV : W ≤ V) {a a' b b' : Fx} {x y : Int}

/-- The right shift is exact whenever its operand is (R108). -/
theorem Certified.sar (ha : Certified a a' x) (n : Nat) : Certified (a.sar n) (a'.sar n) (x / 2 ^ n) := by
  intro h
  obtain ⟨rfl, rfl⟩ := ha h
  exact ⟨rfl, rfl⟩

include hW hV

/-- An exact result that fits the block's width survives narrowing to it and to any wider one (R106). -/
theorem Certified.narrow (e : Int) : Certified (Fx.narrow W e false) (Fx.narrow V e false) e := by
  intro h
  have heq : Fx.narrow W e false = Fx.lit e := congrArg₂ Fx.mk (narrow_val hW h) h
  exact ⟨heq, (narrow_wider hV hW h).trans heq⟩

/-- A narrowed operation `f` on certified operands is certified (R106, R109). -/
theorem Certified.op (f : Int → Int → Int) (ha : Certified a a' x) (hb : Certified b b' y) :
    Certified (Fx.narrow W (f a.val b.val) (a.ovf || b.ovf)) (Fx.narrow V (f a'.val b'.val) (a'.ovf || b'.ovf))
      (f x y) := by
  intro h
  obtain ⟨haovf, hbovf⟩ := (Bool.or_eq_false_iff ..).mp ((narrow_ovf_false ..).mp h).1
  obtain ⟨rfl, rfl⟩ := ha haovf
  obtain ⟨rfl, rfl⟩ := hb hbovf
  exact Certified.narrow hW hV (f x y) h

theorem Certified.add (ha : Certified a a' x) (hb : Certified b b' y) :
    Certified (Fx.add W a b) (Fx.add V a' b') (x + y) := ha.op hW hV (· + ·) hb

theorem Certified.sub (ha : Certified a a' x) (hb : Certified b b' y) :
    Certified (Fx.sub W a b) (Fx.sub V a' b') (x - y) := ha.op hW hV (· - ·) hb

theorem Certified.mul (ha : Certified a a' x) (hb : Certified b b' y) :
    Certified (Fx.mul W a b) (Fx.mul V a' b') (x * y) := ha.op hW hV (· * ·) hb

theorem Certified.quot (ha : Certified a a' x) (hb : Certified b b' y) :
    Certified (Fx.quot W a b) (Fx.quot V a' b') (x.tdiv y) := ha.op hW hV Int.tdiv hb

/-- A left shift is a narrowed multiplication by a power of two (R107). -/
theorem Certified.shl (ha : Certified a a' x) (n : Nat) : Certified (Fx.shl W a n) (Fx.shl V a' n) (x * 2 ^ n) := by
  intro h
  obtain ⟨rfl, rfl⟩ := ha (shl_exact hW n h).2
  exact Certified.narrow hW hV _ h

/-! ### The three commands -/

/-- COMP_T line by line (R113): the fine temperature and the temperature. -/
theorem compensateT_certified (c : Calibration) (adcT : BitVec 20) :
    Certified (compensateT W c adcT).tFine (compensateT V c adcT).tFine (exactT c adcT).1 ∧
    Certified (compensateT W c adcT).temp (compensateT V c adcT).temp (exactT c adcT).2 := by
  have adc := Certified.unsigned adcT
  have t1 := Certified.unsigned c.T1
  have x1 := (adc.sar 3).sub hW hV (t1.shl hW hV 1)
  have m1 := x1.mul hW hV (.signed c.T2)
  have x2 := (adc.sar 4).sub hW hV t1
  have sq := x2.mul hW hV x2
  have m2 := (sq.sar 12).mul hW hV (.signed c.T3)
  have tFine := (m1.sar 11).add hW hV (m2.sar 14)
  exact ⟨tFine, ((tFine.mul hW hV (.lit 5)).add hW hV (.lit 128)).sar 8⟩

/-- COMP_P's first part line by line (R118): the two terms the second part uses. -/
theorem pressureTerms_certified (p1u : Bool) (c : Calibration) (tFine : BitVec 32) :
    Certified (pressureTerms W p1u c tFine).v2 (pressureTerms V p1u c tFine).v2 (exactV2 c tFine) ∧
    Certified (pressureTerms W p1u c tFine).w2 (pressureTerms V p1u c tFine).w2 (exactW2 p1u c tFine) := by
  have v1 := (Certified.signed tFine).sub hW hV (.lit 128000)
  have q := v1.mul hW hV v1
  have v2a := q.mul hW hV (.signed c.P6)
  have v2b := v2a.add hW hV ((v1.mul hW hV (.signed c.P5)).shl hW hV 17)
  have v2 := v2b.add hW hV ((Certified.signed c.P4).shl hW hV 35)
  have w1 := ((q.mul hW hV (.signed c.P3)).sar 8).add hW hV ((v1.mul hW hV (.signed c.P2)).shl hW hV 12)
  exact ⟨v2, (((Certified.lit 140737488355328).add hW hV w1).mul hW hV (.widenP1 p1u c.P1)).sar 33⟩

/-- COMP_P's second part line by line (R120). -/
theorem pressureQuotient_certified {t t' : PressureTerms} {v2 w2 : Int} (hv2 : Certified t.v2 t'.v2 v2)
    (hw2 : Certified t.w2 t'.w2 w2) (c : Calibration) (adcP : BitVec 20) :
    Certified (pressureQuotient W c t adcP) (pressureQuotient V c t' adcP) (exactQuotient c adcP v2 w2) := by
  have p0 := (Certified.lit 1048576).sub hW hV (.unsigned adcP)
  have num := ((p0.shl hW hV 31).sub hW hV hv2).mul hW hV (.lit 3125)
  have p1 := num.quot hW hV hw2
  have s := p1.sar 13
  have w3 := (((Certified.signed c.P9).mul hW hV s).mul hW hV s).sar 25
  have v3 := ((Certified.signed c.P8).mul hW hV p1).sar 19
  exact (((p1.add hW hV w3).add hW hV v3).sar 8).add hW hV ((Certified.signed c.P7).shl hW hV 4)

/-- COMP_P (R118 to R120): the zero guard tests the certified divisor. -/
theorem compensateP_certified (p1u : Bool) (c : Calibration) (adcP : BitVec 20) (tFine : BitVec 32) :
    Certified (compensateP W p1u c adcP tFine) (compensateP V p1u c adcP tFine) (exactP p1u c adcP tFine) := by
  intro h
  obtain ⟨hv2, hw2⟩ := pressureTerms_certified hW hV p1u c tFine
  obtain ⟨hv2ovf, hw2ovf⟩ := terms_ovf_of_compensateP h
  obtain ⟨hw, hw'⟩ := hw2 hw2ovf
  rw [exactP_eq]
  by_cases hz : exactW2 p1u c tFine = 0
  · rw [compensateP_of_zero (by rwa [hw]), compensateP_of_zero (by rwa [hw']), if_pos hz, hw, hw',
      (hv2 hv2ovf).1, (hv2 hv2ovf).2]
    exact ⟨rfl, rfl⟩
  · rw [compensateP_of_ne_zero (by rwa [hw]), compensateP_of_ne_zero (by rwa [hw']), if_neg hz]
    exact pressureQuotient_certified hW hV hv2 hw2 c adcP (by rwa [compensateP_of_ne_zero (by rwa [hw])] at h)

/-- COMP_H line by line, up to the clamp (R125). -/
theorem humidityRaw_certified (c : Calibration) (adcH : BitVec 16) (tFine : BitVec 32) :
    Certified (humidityRaw W c adcH tFine) (humidityRaw V c adcH tFine) (exactY c adcH tFine) := by
  have v := (Certified.signed tFine).sub hW hV (.lit 76800)
  have d := ((Certified.unsigned adcH).shl hW hV 14).sub hW hV ((Certified.signed c.H4).shl hW hV 20)
  have a1 := d.sub hW hV ((Certified.signed c.H5).mul hW hV v)
  have a2 := (a1.add hW hV (.lit 16384)).sar 15
  have b1 := (v.mul hW hV (.signed c.H6)).sar 10
  have b2 := ((v.mul hW hV (.unsigned c.H3)).sar 11).add hW hV (.lit 32768)
  have b3 := ((b1.mul hW hV b2).sar 10).add hW hV (.lit 2097152)
  have b4 := ((b3.mul hW hV (.signed c.H2)).add hW hV (.lit 8192)).sar 14
  have x := a2.mul hW hV b4
  have s := x.sar 15
  exact x.sub hW hV ((((s.mul hW hV s).sar 7).mul hW hV (.unsigned c.H1)).sar 4)

/-- COMP_H (R126): the clamp and the final shift act alike on equal values. -/
theorem compensateH_certified (c : Calibration) (adcH : BitVec 16) (tFine : BitVec 32) :
    Certified (compensateH W c adcH tFine) (compensateH V c adcH tFine) (exactH c adcH tFine) := by
  intro h
  obtain ⟨hy, hy'⟩ := humidityRaw_certified hW hV c adcH tFine h
  rw [compensateH, compensateH, hy, hy']
  exact ⟨rfl, rfl⟩

end Rules

/-! ### What the certificates say -/

/-- The overflow of the fine temperature reaches the temperature. -/
theorem tFine_ovf_of_temp {W : Nat} (hW : 0 < W) {c : Calibration} {adcT : BitVec 20}
    (h : (compensateT W c adcT).temp.ovf = false) : (compensateT W c adcT).tFine.ovf = false :=
  (mul_exact hW (add_exact hW h).2.1).2.1

/-- Settles O42: the certificate at the block's own width. -/
theorem compTExactWithoutOverflow : Obligations.CompTExactWithoutOverflow := by
  intro c adcT h
  have hW : 0 < 32 := by decide
  obtain ⟨htFine, htemp⟩ := compensateT_certified hW le_rfl c adcT
  exact ⟨congrArg Fx.val (htFine (tFine_ovf_of_temp hW h)).1, congrArg Fx.val (htemp h).1⟩

/-- Settles O43: the certificate at the block's own width. -/
theorem compPExactWithoutOverflow : Obligations.CompPExactWithoutOverflow :=
  fun p1u c adcP tFine h => congrArg Fx.val (compensateP_certified (by decide) le_rfl p1u c adcP tFine h).1

/-- Settles O44: the certificate at the block's own width. -/
theorem compHExactWithoutOverflow : Obligations.CompHExactWithoutOverflow :=
  fun c adcH tFine h => congrArg Fx.val (compensateH_certified (by decide) le_rfl c adcH tFine h).1

/-- Where the block reports no overflow, the wider datapath has the block's value. -/
theorem Certified.wider_eq {a a' : Fx} {e : Int} (hc : Certified a a' e) (h : a.ovf = false) : a' = a := by
  obtain ⟨ha, ha'⟩ := hc h
  rw [ha, ha']

/-- Settles O45: the certificate at the width `V`. -/
theorem widerDatapathsAgreeWithoutOverflow : Obligations.WiderDatapathsAgreeWithoutOverflow := by
  refine fun V c tFine => ⟨fun adcT hV h => ?_, fun p1u adcP hV h => ?_, fun adcH hV h => ?_⟩
  · obtain ⟨htFine, htemp⟩ := compensateT_certified (by decide) hV c adcT
    exact ⟨htemp.wider_eq h, htFine.wider_eq (tFine_ovf_of_temp (by decide) h)⟩
  · exact (compensateP_certified (by decide) hV p1u c adcP tFine).wider_eq h
  · exact (compensateH_certified (by decide) hV c adcH tFine).wider_eq h

/-! ### The fixed-width datapaths

Again one rule per operation and one derivation per command. -/

/-- A datapath word `x` with its overflow line `o` carries the value `a` of the pipeline. -/
def CarriedBy {w : Nat} (a : Fx) (x : BitVec w) (o : Bool) : Prop := a = ⟨x.toInt, o⟩

section Rules

variable {w : Nat} {a b : Fx} {x y : BitVec w} {o p : Bool}

/-- A word's overflow line may be drawn in any equal way: a derivation lists the detectors of every operand again, the
datapath lists each once. -/
theorem CarriedBy.ovf_eq (ha : CarriedBy a x o) (h : o = p) : CarriedBy a x p := h ▸ ha

theorem CarriedBy.unsigned {m : Nat} (v : BitVec m) (h : m < w) : CarriedBy (unsignedFx v) (v.zeroExtend w) false :=
  congrArg (Fx.mk · false) (unsigned_wires v h)

theorem CarriedBy.signed {m : Nat} (v : BitVec m) (h : m ≤ w) : CarriedBy (signedFx v) (v.signExtend w) false :=
  congrArg (Fx.mk · false) (signed_wires v h)

theorem CarriedBy.lit (k : Int) (x : BitVec w) (h : x.toInt = k) : CarriedBy (Fx.lit k) x false :=
  congrArg (Fx.mk · false) h.symm

theorem CarriedBy.word (x : BitVec w) : CarriedBy (signedFx x) x false := rfl

theorem CarriedBy.sar (ha : CarriedBy a x o) (n : Nat) : CarriedBy (a.sar n) (x.sshiftRight n) o := by
  subst ha
  exact sar_wires n rfl

variable (hw : 0 < w)
include hw

theorem CarriedBy.add (ha : CarriedBy a x o) (hb : CarriedBy b y p) :
    CarriedBy (Fx.add w a b) (x + y) (o || p || BitVec.saddOverflow x y) := by
  subst ha hb
  exact add_wires hw rfl rfl

theorem CarriedBy.sub (ha : CarriedBy a x o) (hb : CarriedBy b y p) :
    CarriedBy (Fx.sub w a b) (x - y) (o || p || BitVec.ssubOverflow x y) := by
  subst ha hb
  exact sub_wires hw rfl rfl

theorem CarriedBy.mul (ha : CarriedBy a x o) (hb : CarriedBy b y p) :
    CarriedBy (Fx.mul w a b) (x * y) (o || p || BitVec.smulOverflow x y) := by
  subst ha hb
  exact mul_wires hw rfl rfl

theorem CarriedBy.shl (ha : CarriedBy a x o) (n : Nat) :
    CarriedBy (Fx.shl w a n) (x <<< n) (o || shlOverflow x n) := by
  subst ha
  exact shl_wires hw n rfl

/-- The datapath's divider overflows exactly where the truncated quotient leaves the range (R109). -/
theorem sdivOverflow_eq_not_fits (x y : BitVec w) : BitVec.sdivOverflow x y = !fits w (x.toInt.tdiv y.toInt) := by
  have hx : x = BitVec.intMin w ↔ x.toInt = -2 ^ (w - 1) := by
    rw [← BitVec.toInt_inj, BitVec.toInt_intMin_of_pos hw]
  have hy : y = BitVec.allOnes w ↔ y.toInt = -1 := by
    rw [← BitVec.toInt_inj, BitVec.toInt_allOnes, if_pos hw]
  rw [BitVec.sdivOverflow_eq, Bool.eq_iff_iff, Bool.not_eq_true', ← Bool.not_eq_true, fits_tdiv_iff (fits_toInt x),
    not_not]
  simp [hw, hx, hy]

theorem CarriedBy.quot (ha : CarriedBy a x o) (hb : CarriedBy b y p) :
    CarriedBy (Fx.quot w a b) (x.sdiv y) (o || p || BitVec.sdivOverflow x y) := by
  subst ha hb
  exact narrow_wires hw (BitVec.toInt_sdiv x y) (sdivOverflow_eq_not_fits hw x y)

end Rules

/-! ### The datapaths of the three commands -/

/-- COMP_T up to the fine temperature (R113). -/
theorem tFine_carried (c : Calibration) (adcT : BitVec 20) :
    CarriedBy (compensateT 32 c adcT).tFine (fineTemperatureWires c adcT).out (fineTemperatureWires c adcT).ovf := by
  have hw : 0 < 32 := by decide
  have adc := CarriedBy.unsigned (w := 32) adcT (by decide)
  have t1 := CarriedBy.unsigned (w := 32) c.T1 (by decide)
  have x1 := (adc.sar 3).sub hw (t1.shl hw 1)
  have m1 := x1.mul hw (.signed c.T2 (by decide))
  have x2 := (adc.sar 4).sub hw t1
  have sq := x2.mul hw x2
  have m2 := (sq.sar 12).mul hw (.signed c.T3 (by decide))
  refine CarriedBy.ovf_eq ((m1.sar 11).add hw (m2.sar 14)) ?_
  simp only [fineTemperatureWires]
  grind

/-- COMP_T's temperature (R113). -/
theorem temp_carried (c : Calibration) (adcT : BitVec 20) :
    CarriedBy (compensateT 32 c adcT).temp (temperatureWires c adcT).out (temperatureWires c adcT).ovf := by
  have hw : 0 < 32 := by decide
  have scaled := (tFine_carried c adcT).mul hw (.lit 5 5#32 rfl)
  refine CarriedBy.ovf_eq ((scaled.add hw (.lit 128 128#32 rfl)).sar 8) ?_
  simp only [temperatureWires, Bool.or_false]

/-- P1 on the datapath, under either reading (R111). -/
theorem widenP1_carried (p1u : Bool) (x : BitVec 16) : CarriedBy (widenP1 p1u x) (p1Wires p1u x) false := by
  cases p1u
  · exact .signed x (by decide)
  · exact .unsigned x (by decide)

/-- COMP_P's `v2` (R118). -/
theorem pressureOffset_carried (p1u : Bool) (c : Calibration) (tFine : BitVec 32) :
    CarriedBy (pressureTerms 64 p1u c tFine).v2 (pressureOffsetWires c tFine).out
      (pressureOffsetWires c tFine).ovf := by
  have hw : 0 < 64 := by decide
  have v1 := (CarriedBy.signed tFine (by decide)).sub hw (.lit 128000 128000#64 rfl)
  have q := v1.mul hw v1
  have first := q.mul hw (.signed c.P6 (by decide))
  have second := first.add hw ((v1.mul hw (.signed c.P5 (by decide))).shl hw 17)
  refine CarriedBy.ovf_eq (second.add hw ((CarriedBy.signed c.P4 (by decide)).shl hw 35)) ?_
  simp only [pressureOffsetWires]
  grind

/-- COMP_P's divisor `w2` (R118). -/
theorem pressureDivisor_carried (p1u : Bool) (c : Calibration) (tFine : BitVec 32) :
    CarriedBy (pressureTerms 64 p1u c tFine).w2 (pressureDivisorWires p1u c tFine).out
      (pressureDivisorWires p1u c tFine).ovf := by
  have hw : 0 < 64 := by decide
  have v1 := (CarriedBy.signed tFine (by decide)).sub hw (.lit 128000 128000#64 rfl)
  have q := v1.mul hw v1
  have w1 := ((q.mul hw (.signed c.P3 (by decide))).sar 8).add hw ((v1.mul hw (.signed c.P2 (by decide))).shl hw 12)
  have sum := (CarriedBy.lit 140737488355328 0x0000800000000000#64 rfl).add hw w1
  refine CarriedBy.ovf_eq ((sum.mul hw (widenP1_carried p1u c.P1)).sar 33) ?_
  simp only [pressureDivisorWires]
  grind

/-- COMP_P (R118 to R120): the zero guard of the datapath tests the word that carries `w2`. -/
theorem compensateP_carried (p1u : Bool) (c : Calibration) (adcP : BitVec 20) (tFine : BitVec 32) :
    CarriedBy (compensateP 64 p1u c adcP tFine) (pressureWires p1u c adcP tFine).out
      (pressureWires p1u c adcP tFine).ovf := by
  have hw : 0 < 64 := by decide
  have v2 := pressureOffset_carried p1u c tFine
  have w2 := pressureDivisor_carried p1u c tFine
  have hzero : (pressureTerms 64 p1u c tFine).w2.val = 0 ↔ (pressureDivisorWires p1u c tFine).out = 0#64 := by
    rw [w2, ← BitVec.toInt_inj, BitVec.toInt_zero]
  by_cases hz : (pressureDivisorWires p1u c tFine).out = 0#64
  · rw [compensateP_of_zero (hzero.mpr hz), v2, w2]
    simp only [pressureWires, if_pos hz]
    rfl
  · rw [compensateP_of_ne_zero (mt hzero.mp hz)]
    have p0 := (CarriedBy.lit 1048576 1048576#64 rfl).sub hw (.unsigned adcP (by decide))
    have num := ((p0.shl hw 31).sub hw v2).mul hw (.lit 3125 3125#64 rfl)
    have p1 := num.quot hw w2
    have s := p1.sar 13
    have w3 := (((CarriedBy.signed c.P9 (by decide)).mul hw s).mul hw s).sar 25
    have v3 := ((CarriedBy.signed c.P8 (by decide)).mul hw p1).sar 19
    have p7 := (CarriedBy.signed c.P7 (by decide)).shl hw 4
    have p2 := (((p1.add hw w3).add hw v3).sar 8).add hw p7
    simp only [pressureWires, if_neg hz]
    refine CarriedBy.ovf_eq p2 ?_
    grind

/-- COMP_H up to the clamp (R125). -/
theorem humidityRaw_carried (c : Calibration) (adcH : BitVec 16) (tFine : BitVec 32) :
    CarriedBy (humidityRaw 32 c adcH tFine) (humidityWires c adcH tFine).out (humidityWires c adcH tFine).ovf := by
  have hw : 0 < 32 := by decide
  have v := (CarriedBy.word tFine).sub hw (.lit 76800 76800#32 rfl)
  have adc := CarriedBy.unsigned (w := 32) adcH (by decide)
  have d := (adc.shl hw 14).sub hw ((CarriedBy.signed c.H4 (by decide)).shl hw 20)
  have a1 := d.sub hw ((CarriedBy.signed c.H5 (by decide)).mul hw v)
  have a2 := (a1.add hw (.lit 16384 16384#32 rfl)).sar 15
  have b1 := (v.mul hw (.signed c.H6 (by decide))).sar 10
  have b2 := ((v.mul hw (.unsigned c.H3 (by decide))).sar 11).add hw (.lit 32768 32768#32 rfl)
  have b3 := ((b1.mul hw b2).sar 10).add hw (.lit 2097152 2097152#32 rfl)
  have b4 := ((b3.mul hw (.signed c.H2 (by decide))).add hw (.lit 8192 8192#32 rfl)).sar 14
  have x := a2.mul hw b4
  have s := x.sar 15
  have e := (((s.mul hw s).sar 7).mul hw (.unsigned c.H1 (by decide))).sar 4
  refine CarriedBy.ovf_eq (x.sub hw e) ?_
  simp only [humidityWires]
  grind

/-! ### Payloads -/

/-- A signed 32-bit number is read back from its bit pattern (R9). -/
theorem toInt_asU32 {v : Int} (h : fits 32 v = true) : (asU32 v).toInt = v := by
  obtain ⟨hlow, hhigh⟩ := (fits_iff 32 v).mp h
  exact BitVec.toInt_ofInt_eq_self (by decide) hlow hhigh

/-- The low 32 bits of a 32-bit word's number are the word. -/
theorem asU32_toInt (x : BitVec 32) : asU32 x.toInt = x := BitVec.ofInt_toInt

/-- The low 32 bits of a 64-bit word's number are the word's low half (R121). -/
theorem asU32_toInt_low (x : BitVec 64) : asU32 x.toInt = x.extractLsb' 0 32 := by
  apply BitVec.eq_of_toNat_eq
  rw [asU32, BitVec.toNat_ofInt, BitVec.toInt_eq_toNat_cond, BitVec.extractLsb'_toNat]
  split <;> omega

/-- A 32-bit result stands in the low half of the payload, over zeros (R59). -/
theorem zeroExtend_eq_append (x : BitVec 32) : x.zeroExtend 64 = 0#32 ++ x := BitVec.setWidth_eq_append (by decide)

/-! ### COMP_T's ranges and overflow sites -/

/-- The signed range of 32 bits in numerals. -/
theorem fits_32_iff (x : Int) : fits 32 x = true ↔ -2147483648 ≤ x ∧ x ≤ 2147483647 := by
  rw [fits_iff]
  omega

/-- An exact result in the 32-bit range is not changed by narrowing, and adds no overflow (R106). -/
theorem narrow_32_of_range {e : Int} (h : -2147483648 ≤ e ∧ e ≤ 2147483647) (o : Bool) :
    Fx.narrow 32 e o = ⟨e, o⟩ := by
  have hfits := (fits_32_iff e).mpr h
  rw [Fx.narrow, wrap_of_fits (by decide) hfits, hfits, Bool.not_true, Bool.or_false]

/-- A product lies in the 32-bit range, whatever overflowed (R106). -/
theorem mul_32_range (a b : Fx) : -2147483648 ≤ (Fx.mul 32 a b).val ∧ (Fx.mul 32 a b).val ≤ 2147483647 :=
  (fits_32_iff _).mp (wrap_fits (by decide) _)

section Temperature

variable (c : Calibration) (adcT : BitVec 20)

/-! The lines of R113 at width 32, from the named intermediates. -/

theorem compensateT_x1 : (compensateT 32 c adcT).x1
    = Fx.sub 32 ((unsignedFx adcT).sar 3) (Fx.shl 32 (unsignedFx c.T1) 1) := rfl
theorem compensateT_x2 : (compensateT 32 c adcT).x2
    = Fx.sub 32 ((unsignedFx adcT).sar 4) (unsignedFx c.T1) := rfl
theorem compensateT_m1 : (compensateT 32 c adcT).m1
    = Fx.mul 32 (compensateT 32 c adcT).x1 (signedFx c.T2) := rfl
theorem compensateT_sq : (compensateT 32 c adcT).sq
    = Fx.mul 32 (compensateT 32 c adcT).x2 (compensateT 32 c adcT).x2 := rfl
theorem compensateT_m2 : (compensateT 32 c adcT).m2
    = Fx.mul 32 ((compensateT 32 c adcT).sq.sar 12) (signedFx c.T3) := rfl
theorem compensateT_tFine : (compensateT 32 c adcT).tFine
    = Fx.add 32 ((compensateT 32 c adcT).m1.sar 11) ((compensateT 32 c adcT).m2.sar 14) := rfl
theorem compensateT_temp : (compensateT 32 c adcT).temp
    = ((Fx.mul 32 (compensateT 32 c adcT).tFine (Fx.lit 5)).add 32 (Fx.lit 128)).sar 8 := rfl

/-- `x1` never overflows (R114). -/
theorem compensateT_x1_exact : (compensateT 32 c adcT).x1 = Fx.lit (adcT.toNat / 2 ^ 3 - c.T1.toNat * 2 ^ 1) := by
  have hadc := adcT.isLt
  have ht1 := c.T1.isLt
  have hshl : Fx.shl 32 (unsignedFx c.T1) 1 = Fx.lit (c.T1.toNat * 2 ^ 1) :=
    narrow_32_of_range (by rw [unsignedFx_val]; omega) false
  rw [compensateT_x1, hshl]
  exact narrow_32_of_range (by simp only [sar_val, unsignedFx_val, lit_val]; omega) false

/-- `x2` never overflows (R114). -/
theorem compensateT_x2_exact : (compensateT 32 c adcT).x2 = Fx.lit (adcT.toNat / 2 ^ 4 - c.T1.toNat) := by
  have hadc := adcT.isLt
  have ht1 := c.T1.isLt
  rw [compensateT_x2]
  exact narrow_32_of_range (by simp only [sar_val, unsignedFx_val]; omega) false

/-- `x1` in numerals (R114). -/
theorem compensateT_x1_range :
    -131070 ≤ (compensateT 32 c adcT).x1.val ∧ (compensateT 32 c adcT).x1.val ≤ 131071 := by
  have hadc := adcT.isLt
  have ht1 := c.T1.isLt
  rw [compensateT_x1_exact, lit_val]
  omega

/-- `x2` in numerals (R114). -/
theorem compensateT_x2_range :
    -65535 ≤ (compensateT 32 c adcT).x2.val ∧ (compensateT 32 c adcT).x2.val ≤ 65535 := by
  have hadc := adcT.isLt
  have ht1 := c.T1.isLt
  rw [compensateT_x2_exact, lit_val]
  omega

/-- The square overflows from 46341 up, since 46340² fits 32 bits and 46341² does not (R114). -/
theorem compensateT_sq_ovf_iff :
    (compensateT 32 c adcT).sq.ovf = true ↔ 46341 ≤ |(compensateT 32 c adcT).x2.val| := by
  have hovf : (compensateT 32 c adcT).x2.ovf = false := by rw [compensateT_x2_exact, lit_ovf]
  have hnonneg := abs_nonneg (compensateT 32 c adcT).x2.val
  rw [compensateT_sq, Fx.mul, narrow_ovf_iff, hovf, ← abs_mul_abs_self (compensateT 32 c adcT).x2.val]
  generalize |(compensateT 32 c adcT).x2.val| = x at hnonneg ⊢
  simp only [Bool.or_self, Bool.false_eq_true, false_or]
  constructor
  · intro h
    by_contra hlt
    have hsq : x * x ≤ 46340 * 46340 := mul_self_le_mul_self hnonneg (by omega)
    have := mul_self_nonneg x
    omega
  · intro h
    have hsq : 46341 * 46341 ≤ x * x := mul_self_le_mul_self (by decide) h
    omega

/-- A factor below 65536 keeps the product with any 16-bit constant within 32 bits (R114). -/
theorem le_abs_x1_of_m1_ovf (h : (compensateT 32 c adcT).m1.ovf = true) :
    65536 ≤ |(compensateT 32 c adcT).x1.val| := by
  have hovf : (compensateT 32 c adcT).x1.ovf = false := by rw [compensateT_x1_exact, lit_ovf]
  rw [compensateT_m1, Fx.mul, narrow_ovf_iff, hovf, signedFx_val, signedFx_ovf] at h
  simp only [Bool.or_self, Bool.false_eq_true, false_or] at h
  by_contra hlt
  have ht2 : |c.T2.toInt| ≤ 32768 := abs_le.mpr ⟨c.T2.le_toInt, c.T2.toInt_lt.le⟩
  have hprod : |(compensateT 32 c adcT).x1.val * c.T2.toInt| ≤ 65535 * 32768 := by
    rw [abs_mul]
    exact mul_le_mul (by omega) ht2 (abs_nonneg _) (by decide)
  obtain ⟨hlow, hhigh⟩ := abs_le.mp hprod
  omega

/-- `var1` and `var2` are small whatever happened before, so their sum lies in the range of R114. -/
theorem var1_add_var2_range :
    -1179648 ≤ (compensateT 32 c adcT).m1.val / 2 ^ 11 + (compensateT 32 c adcT).m2.val / 2 ^ 14 ∧
    (compensateT 32 c adcT).m1.val / 2 ^ 11 + (compensateT 32 c adcT).m2.val / 2 ^ 14 ≤ 1179646 := by
  obtain ⟨hm1, hm1'⟩ := mul_32_range (compensateT 32 c adcT).x1 (signedFx c.T2)
  obtain ⟨hm2, hm2'⟩ := mul_32_range ((compensateT 32 c adcT).sq.sar 12) (signedFx c.T3)
  rw [compensateT_m1, compensateT_m2]
  omega

/-- The sum of `var1` and `var2` never overflows (R114). -/
theorem compensateT_tFine_exact : (compensateT 32 c adcT).tFine =
    ⟨(compensateT 32 c adcT).m1.val / 2 ^ 11 + (compensateT 32 c adcT).m2.val / 2 ^ 14,
      (compensateT 32 c adcT).m1.ovf || (compensateT 32 c adcT).m2.ovf⟩ := by
  obtain ⟨hlow, hhigh⟩ := var1_add_var2_range c adcT
  rw [compensateT_tFine, Fx.add, narrow_32_of_range (by simp only [sar_val]; omega)]
  simp only [sar_val, sar_ovf]

/-- `t_fine` in numerals (R114). -/
theorem compensateT_tFine_range :
    -1179648 ≤ (compensateT 32 c adcT).tFine.val ∧ (compensateT 32 c adcT).tFine.val ≤ 1179646 := by
  rw [compensateT_tFine_exact]
  exact var1_add_var2_range c adcT

/-- The last line of R113 over the integers: it never overflows (R114). -/
theorem compensateT_temp_exact : (compensateT 32 c adcT).temp =
    ⟨((compensateT 32 c adcT).tFine.val * 5 + 128) / 2 ^ 8, (compensateT 32 c adcT).tFine.ovf⟩ := by
  obtain ⟨hlow, hhigh⟩ := compensateT_tFine_range c adcT
  rw [compensateT_temp]
  generalize (compensateT 32 c adcT).tFine = t at hlow hhigh ⊢
  have hmul : Fx.mul 32 t (Fx.lit 5) = ⟨t.val * 5, t.ovf⟩ := by
    rw [Fx.mul, narrow_32_of_range (by simp only [lit_val]; omega), lit_val, lit_ovf, Bool.or_false]
  have hadd : Fx.add 32 ⟨t.val * 5, t.ovf⟩ (Fx.lit 128) = ⟨t.val * 5 + 128, t.ovf⟩ := by
    rw [Fx.add, narrow_32_of_range (by simp only [lit_val]; omega), lit_val, lit_ovf, Bool.or_false]
  rw [hmul, hadd]
  rfl

/-- The temperature lies in the 32-bit range, so the payload shows it as it is (R114). -/
theorem toInt_asU32_temp :
    (asU32 (compensateT 32 c adcT).temp.val).toInt = ((compensateT 32 c adcT).tFine.val * 5 + 128) / 2 ^ 8 := by
  obtain ⟨hlow, hhigh⟩ := compensateT_tFine_range c adcT
  rw [compensateT_temp_exact]
  exact toInt_asU32 ((fits_32_iff _).mpr (by simp only; omega))

/-- The fine temperature likewise (R114). -/
theorem toInt_asU32_tFine : (asU32 (compensateT 32 c adcT).tFine.val).toInt = (compensateT 32 c adcT).tFine.val := by
  obtain ⟨hlow, hhigh⟩ := compensateT_tFine_range c adcT
  exact toInt_asU32 ((fits_32_iff _).mpr (by omega))

/-- With `T2` = `T3` = 0 both products are 0, and the only overflow left is the square's (R113, R115). -/
theorem tFine_of_zero_factors (h2 : c.T2 = 0) (h3 : c.T3 = 0) :
    (compensateT 32 c adcT).tFine = ⟨0, (compensateT 32 c adcT).sq.ovf⟩ := by
  have hm1 : (compensateT 32 c adcT).m1 = ⟨0, false⟩ := by
    have hfactor : (signedFx c.T2).val = 0 := by rw [h2]; rfl
    rw [compensateT_m1, compensateT_x1_exact, Fx.mul, hfactor, mul_zero]
    rfl
  have hm2 : (compensateT 32 c adcT).m2 = ⟨0, (compensateT 32 c adcT).sq.ovf⟩ := by
    have hfactor : (signedFx c.T3).val = 0 := by rw [h3]; rfl
    rw [compensateT_m2, Fx.mul, hfactor, mul_zero, narrow_32_of_range (by decide), sar_ovf, signedFx_ovf,
      Bool.or_false]
  rw [compensateT_tFine_exact, hm1, hm2]
  rfl

end Temperature

/-- Settles O47: the ranges and sites above, line by line. -/
theorem temperatureRangesAndOverflowSites : Obligations.TemperatureRangesAndOverflowSites := by
  intro c adcT t
  obtain ⟨hx1, hx1'⟩ := compensateT_x1_range c adcT
  obtain ⟨hx2, hx2'⟩ := compensateT_x2_range c adcT
  obtain ⟨htFine, htFine'⟩ := compensateT_tFine_range c adcT
  refine ⟨⟨hx1, hx1', by rw [compensateT_x1_exact, lit_ovf]⟩,
    ⟨hx2, hx2', by rw [compensateT_x2_exact, lit_ovf]⟩, compensateT_sq_ovf_iff c adcT,
    le_abs_x1_of_m1_ovf c adcT, ⟨htFine, htFine'⟩, ?_, ?_⟩
  · rw [compensateT_temp_exact, compensateT_tFine_exact, Bool.or_eq_true]
  · rw [compensateT_temp_exact]
    simp only
    omega

/-- Settles O46: an `ST_OK` response comes from a loaded calibration, and its two halves are COMP_T's results. -/
theorem temperatureIsScaledFineTemperature : Obligations.TemperatureIsScaledFineTemperature := by
  intro s t adcT r he hr hok
  rcases exec_response_keeps_or_commits he hr with ⟨hne, -⟩ | ⟨-, ⟨-, hcal, -⟩, -⟩
  · exact absurd hok hne
  rw [exec_compT s (hcal rfl), Host.Outcome.next.injEq] at he
  subst he
  obtain rfl := response_unique hr
  rw [BitVec.extractLsb'_append_eq_of_add_le (by decide), BitVec.extractLsb'_append_eq_of_le (by decide),
    BitVec.extractLsb'_eq_self, BitVec.extractLsb'_eq_self, toInt_asU32_temp, toInt_asU32_tFine]
  rfl

/-- Settles O59: `x2` is the raw count without its low 4 bits, and its square is the one overflow site left. -/
theorem zeroConstantsGiveZeroTemperature : Obligations.ZeroConstantsGiveZeroTemperature := by
  intro s adcT hvalid h1 h2 h3
  have hsq : (compensateT 32 s.cal adcT).sq.ovf = decide (741456 ≤ adcT.toNat) := by
    have hx2 : (compensateT 32 s.cal adcT).x2.val = adcT.toNat / 2 ^ 4 := by
      rw [compensateT_x2_exact, h1]
      exact sub_zero _
    rw [Bool.eq_iff_iff, decide_eq_true_iff, compensateT_sq_ovf_iff, hx2, abs_of_nonneg (by positivity)]
    omega
  have hres : asU32 0 ++ asU32 ((0 * 5 + 128) / 2 ^ 8) = (0 : BitVec 64) := by decide
  rw [exec_compT s hvalid, compensateT_temp_exact, tFine_of_zero_factors s.cal adcT h2 h3, hsq, hres]

/-- Settles O39: the payload's halves are the two words of the datapath. -/
theorem compTEqualsItsDatapath : Obligations.CompTEqualsItsDatapath := by
  intro s adcT hvalid
  rw [exec_compT s hvalid, tFine_carried, temp_carried, asU32_toInt, asU32_toInt]

/-! ### COMP_P -/

/-- Settles O40: the payload is the low half of the datapath's word. -/
theorem compPEqualsItsDatapath : Obligations.CompPEqualsItsDatapath := by
  intro s adcP tFine hvalid
  rw [exec_compP s hvalid, compensateP_carried, asU32_toInt_low, zeroExtend_eq_append]

/-- A zero P1 makes the divisor 0, whatever the other factor (R119). -/
theorem w2_of_zero_P1 (p1u : Bool) {c : Calibration} (h : c.P1 = 0) (tFine : BitVec 32) :
    (pressureTerms 64 p1u c tFine).w2.val = 0 := by
  have hp1 : (widenP1 p1u c.P1).val = 0 := by
    rw [h]
    cases p1u <;> rfl
  simp only [pressureTerms, Fx.mul, hp1, mul_zero, sar_val]
  rfl

/-- Settles O48: the guard's branch of COMP_P, and a product with a zero factor. -/
theorem zeroDivisorAnswersZero : Obligations.ZeroDivisorAnswersZero := by
  refine fun s adcP tFine hvalid => ⟨fun hw2 => ?_, fun hp1 => w2_of_zero_P1 _ hp1 tFine⟩
  rw [exec_compP s hvalid, compensateP_of_zero hw2]
  rfl

/-! ### COMP_H -/

/-- The clamp's three cases (R126). -/
theorem clampH_cases (y : Int) :
    (y < 0 → clampH y = 0) ∧ (419430400 < y → clampH y = 419430400) ∧ (0 ≤ y → y ≤ 419430400 → clampH y = y) := by
  simp only [clampH, hClampMax]
  omega

/-- The clamp and the scale-down on the datapath's word (R126). -/
theorem asU32_clampH (y : BitVec 32) : asU32 (clampH y.toInt / 2 ^ 12) = clampWires y := by
  obtain ⟨hneg, hbig, hmid⟩ := clampH_cases y.toInt
  have hmax : (419430400#32).toInt = 419430400 := by decide
  simp only [clampWires, BitVec.slt_iff_toInt_lt, BitVec.toInt_zero, hmax]
  split
  case isTrue hlt =>
    rw [hneg hlt]
    decide
  case isFalse hge =>
    split
    case isTrue hgt =>
      rw [hbig hgt]
      decide
    case isFalse hle =>
      rw [hmid (by omega) (by omega)]
      have hnat : y.toInt = y.toNat := BitVec.toInt_eq_toNat_of_lt (by rw [BitVec.toInt_eq_toNat_cond] at hge; omega)
      apply BitVec.eq_of_toNat_eq
      rw [asU32, BitVec.toNat_ofInt, BitVec.toNat_ushiftRight, Nat.shiftRight_eq_div_pow, hnat]
      omega

/-- COMP_H's next state from `y` and the clamp (R124 to R126). -/
theorem exec_compH_clamped {s : State} (h : s.calValid = true) (adcH : BitVec 16) (tFine : BitVec 32) :
    exec (.compH adcH tFine) s = .next (s.ended s.bus [] ⟨.ok, (humidityRaw 32 s.cal adcH tFine).ovf,
      (asU32 (clampH (humidityRaw 32 s.cal adcH tFine).val / 2 ^ 12)).zeroExtend 64⟩) := by
  rw [exec_compH s h, compensateH]

/-- Settles O41: the payload is the datapath's word after the clamp. -/
theorem compHEqualsItsDatapath : Obligations.CompHEqualsItsDatapath := by
  intro s adcH tFine hvalid
  rw [exec_compH_clamped hvalid, humidityRaw_carried, asU32_clampH, zeroExtend_eq_append]

/-- Settles O49: `z` is the clamped `y`, which is never negative. -/
theorem humiditySaturates : Obligations.HumiditySaturates := by
  intro s adcH tFine hvalid y
  obtain ⟨hneg, hbig, hmid⟩ := clampH_cases y.val
  obtain ⟨hlow, hhigh⟩ := clampH_range y.val
  obtain ⟨z, hz⟩ := Int.eq_ofNat_of_zero_le hlow
  refine ⟨z, z / 4096, by omega, by omega, by omega, rfl, by omega, ?_⟩
  have hres : (asU32 (clampH y.val / 2 ^ 12)).zeroExtend 64 = BitVec.ofNat 64 (z / 4096) := by
    apply BitVec.eq_of_toNat_eq
    rw [asU32, BitVec.toNat_setWidth, BitVec.toNat_ofInt, BitVec.toNat_ofNat, hz]
    omega
  rw [exec_compH_clamped hvalid, hres]

/-- Settles O51: `H4` is not negative, and a multiple of 2^20 that fits and has its residue is the wrapped value. -/
theorem humidityConstantShiftWraps : Obligations.HumidityConstantShiftWraps := by
  intro h4 hle
  have hint : (signedFx h4).val = h4.toNat := BitVec.toInt_eq_toNat_of_lt (by omega)
  have hlow : (h4.extractLsb' 0 12).toInt = if 2 * h4.toNat < 4096 then (h4.toNat : Int) else h4.toNat - 4096 := by
    rw [BitVec.toInt_eq_toNat_cond, BitVec.extractLsb'_toNat, Nat.shiftRight_zero, Nat.mod_eq_of_lt (by omega)]
    rfl
  constructor
  · rw [Fx.shl, narrow_ovf_iff, hint, signedFx_ovf]
    simp only [Bool.false_eq_true, false_or]
    omega
  · have hfits : fits 32 ((h4.extractLsb' 0 12).toInt * 2 ^ 20) = true := by
      rw [fits_32_iff, hlow]
      omega
    have hmod : (h4.extractLsb' 0 12).toInt * 2 ^ 20 % 2 ^ 32 = (h4.toNat : Int) * 2 ^ 20 % 2 ^ 32 := by
      rw [hlow]
      omega
    rw [Fx.shl, hint, Fx.narrow, eq_wrap_of_fits_of_emod_eq (by decide) hfits hmod]

/-! ### All three -/

/-- Settles O50: the whole next state of each command names `cal` and nothing else of the state. -/
theorem compensationDependsOnCalOnly : Obligations.CompensationDependsOnCalOnly := by
  rintro i s s' (⟨a, rfl⟩ | ⟨a, f, rfl⟩ | ⟨a, f, rfl⟩) hvalid hvalid' hcal
  · exact ⟨_, rfl, exec_compT s hvalid a, by rw [exec_compT s' hvalid', hcal]⟩
  · exact ⟨_, rfl, exec_compP s hvalid a f, by rw [exec_compP s' hvalid', hcal]⟩
  · exact ⟨_, rfl, exec_compH s hvalid a f, by rw [exec_compH s' hvalid', hcal]⟩

end Sys2Proof.Machine
end

section
/-! SUPPORT. Statuses (60_exceptions.md): the checks in their order, a completion that is precise or `ST_OK`, and what each
status needs of the command it ends. -/

namespace Sys2Proof.Machine

/-! ### The checks -/

/-- Settles O20: each failed check, with the earlier ones passed, refuses the command with its status. -/
theorem checksInOrder : Obligations.ChecksInOrder :=
  fun _ s => ⟨fun hwf => exec_of_not_wellFormed hwf s, exec_of_not_calValid, exec_of_not_admitted⟩

/-- Settles O21: the five commands are well formed and need calibration. -/
theorem uncalibratedCommandsRefused : Obligations.UncalibratedCommandsRefused := by
  refine fun s hvalid => ⟨fun period filter hfilter => ?_, fun osrsH osrsT osrsP mode hH hT hP hmode => ?_,
    fun adcT => ?_, fun adcP tFine => ?_, fun adcH tFine => ?_⟩
  · exact exec_of_not_calValid (i := .configure period filter) (decide_eq_true hfilter) rfl hvalid
  · exact exec_of_not_calValid ((start_wellFormed_iff osrsH osrsT osrsP mode).mpr ⟨hmode, hT, hP, hH⟩) rfl hvalid
  all_goals exact exec_of_not_calValid rfl rfl hvalid

/-- Settles O22: the two commands are well formed, calibration is loaded, and the state is not one they are admitted in. -/
theorem wrongStateRefused : Obligations.WrongStateRefused := by
  refine fun s hvalid => ⟨fun period filter hfilter hseq => ?_,
    fun osrsH osrsT osrsP mode hH hT hP hmode hconf hidle => ?_⟩
  · exact exec_of_not_admitted (i := .configure period filter) (decide_eq_true hfilter) (fun _ => hvalid)
      (by simpa [admitted] using hseq)
  · exact exec_of_not_admitted ((start_wellFormed_iff osrsH osrsT osrsP mode).mpr ⟨hmode, hT, hP, hH⟩)
      (fun _ => hvalid) (by simp [admitted, hconf, hidle])

/-! ### Precise completion -/

/-- Between `s` and `t` the registers stay as they were and a response, if one is given, has an empty payload; or a command
ends with `ST_OK` (R132). -/
def PreciseOrOk (s t : State) : Prop :=
  (SameRegisters s t ∧ ∀ r, t.responses = s.responses ++ [r] → r.res = 0 ∧ r.ovf = false) ∨
    (t.flight = none ∧ ∃ ovf res, t.responses = s.responses ++ [⟨.ok, ovf, res⟩])

/-- Registers that stay as they were, with no response, are precise. -/
theorem PreciseOrOk.of_no_response {s t : State} (hsame : SameRegisters s t) (hresp : t.responses = s.responses) :
    PreciseOrOk s t := by
  refine .inl ⟨hsame, fun r hr => ?_⟩
  exact absurd (hresp.symm.trans hr) (by simp)

/-- Registers that stay as they were, with an empty response, are precise. -/
theorem PreciseOrOk.of_empty_response {s t : State} (hsame : SameRegisters s t) {st : Status}
    (hresp : t.responses = s.responses ++ [⟨st, false, 0⟩]) : PreciseOrOk s t := by
  refine .inl ⟨hsame, fun r hr => ?_⟩
  obtain rfl := response_unique (hresp.symm.trans hr)
  exact ⟨rfl, rfl⟩

/-- Raising a status is precise (R132, R143). -/
theorem raise_preciseOrOk (s : State) (st : Status) : PreciseOrOk s (s.raise st) :=
  .of_empty_response ⟨rfl, rfl, rfl, rfl⟩ rfl

/-- Issuing phases, from whichever phase, is precise or commits (R132, R158). -/
theorem issue_preciseOrOk (i : Instr) (rs : List Request) (k : Nat) (staged : List Byte) (s : State) :
    PreciseOrOk s ((commandOf i).issue rs k staged s) := by
  rcases issue_registers i rs k staged s with ⟨as, l, -, -, he⟩ | ⟨hsame, hresp | ⟨q, hresp⟩⟩
  · obtain ⟨ovf, res, hresp, hflight, -⟩ :=
      commit_responds i (staged ++ deliveredBytes rs as) (s.afterPhases rs as l)
    rw [he]
    exact .inr ⟨hflight, ovf, res, hresp⟩
  · exact .of_no_response hsame hresp
  · exact .of_empty_response hsame hresp

/-- Performing a command from its checks on is precise or commits (R132, R134). -/
theorem run_preciseOrOk (i : Instr) (s : State) : PreciseOrOk s ((commandOf i).run s) := by
  rcases run_cases i s with ⟨-, hrun⟩ | ⟨st, -, -, hrun⟩
  · rw [hrun]
    exact issue_preciseOrOk i _ 0 [] s
  · rw [hrun, ← raise_refusedWith]
    exact raise_preciseOrOk s st

/-- Every step without reset is precise or commits, along the things a step can be (R132). -/
theorem step_preciseOrOk {s t : State} (hreset : ¬ ResetNext s) (hstep : step s = .next t) : PreciseOrOk s t := by
  rcases step_next_cases hstep with ⟨later, hh, -⟩ | ⟨f, -, rfl⟩ | ⟨w, later, i, -, -, -, rfl⟩ | ⟨later, rfl⟩ | rfl
  · exact absurd ⟨later, hh⟩ hreset
  · exact issue_preciseOrOk f.cmd _ f.phase f.staged s
  · exact run_preciseOrOk i (s.takeHost later)
  · exact raise_preciseOrOk (s.takeHost later) .illegal
  · exact .of_no_response ⟨rfl, rfl, rfl, rfl⟩ rfl

/-- Settles O23: a step that is not precise ends a command with `ST_OK`. -/
theorem nonOkCompletionIsPrecise : Obligations.NonOkCompletionIsPrecise := by
  intro s t hreset hstep
  rcases step_preciseOrOk hreset hstep with ⟨hsame, hempty⟩ | ⟨hflight, ovf, res, hresp⟩
  · exact ⟨fun r hr _ => ⟨hsame, hempty r hr⟩, fun _ => hsame⟩
  · refine ⟨fun r hr hne => ?_, fun h => absurd hflight h⟩
    obtain rfl := response_unique (hresp.symm.trans hr)
    exact absurd rfl hne

/-! ### The statuses of a command -/

/-- What a command is like that completes with the status: `ST_BUS` takes a phase, `ST_BUS_PARTIAL` is START's, and the
statuses of the checks take a check that can fail (R131, R134, R136, R137). -/
def CanEndWith (i : Instr) : Status → Prop
  | .ok => True
  | .bus => ruledRequests i ≠ []
  | .busPartial => ∃ osrsH osrsT osrsP mode, i = .start osrsH osrsT osrsP mode
  | .noCal => needsCal i = true
  | .badState => ∃ q, admitted i q = false
  | .operand => i.WellFormed = false
  | .illegal => False

/-- A failed check raises a status of a check that can fail (R134). -/
theorem check_canEndWith {i : Instr} {s : State} {st : Status} (h : (commandOf i).check s = some st) :
    CanEndWith i st := by
  rw [commandOf_check] at h
  split_ifs at h with hwf hcal hadm
  all_goals obtain rfl := Option.some.inj h
  · exact hwf
  · exact hcal.1
  · exact ⟨s.seq, hadm⟩

/-- A failed phase raises a status of a command that has phases (R136, R137). -/
theorem failStatus_canEndWith {i : Instr} (h : ruledRequests i ≠ []) (k : Nat) :
    CanEndWith i ((commandOf i).failStatus k) := by
  rw [commandOf_failStatus]
  split
  · split_ifs
    · exact h
    · exact ⟨_, _, _, _, rfl⟩
  · exact h

/-- A command's response has a status the command can end with. -/
theorem exec_response_canEndWith {i : Instr} {s t : State} {r : Response} (he : exec i s = .next t)
    (hr : t.responses = s.responses ++ [r]) : CanEndWith i r.status := by
  rcases exec_response he hr with ⟨st, hc, -, rfl⟩ | ⟨-, k, q, l, phases, hq, rfl, -⟩ | ⟨-, as, l, -, -, rfl⟩
  · exact check_canEndWith hc
  · exact failStatus_canEndWith (List.ne_nil_of_mem (List.mem_of_getElem? hq)) k
  · obtain ⟨ovf, res, hresp, -⟩ :=
      commit_responds i (deliveredBytes (ruledRequests i) as) (s.afterPhases (ruledRequests i) as l)
    obtain rfl := response_unique (hresp.symm.trans hr)
    trivial

/-- Settles O24: command by command, the statuses it can end with are those of its row. -/
theorem statusesOfEachCommand : Obligations.StatusesOfEachCommand := by
  intro i s t r he hr
  have hend := exec_response_canEndWith he hr
  cases i with
  | probe | loadCal | isBusy | readSample =>
    cases hst : r.status <;> simp [hst, CanEndWith, needsCal, admitted, Instr.WellFormed] at hend ⊢
  | configure _ _ | start _ _ _ _ =>
    cases hst : r.status <;> simp [hst, CanEndWith] at hend ⊢
  | compT _ | compP _ _ | compH _ _ =>
    cases hst : r.status <;> simp [hst, CanEndWith, ruledRequests, admitted, Instr.WellFormed] at hend ⊢

end Sys2Proof.Machine
end

section
/-! SUPPORT. Reset and hazards (70_reset_and_hazards.md): a transport that answers carries every command to its response,
and reset abandons the request a command in flight waits on. -/

namespace Sys2Proof.Machine

/-! ### A transport that answers -/

/-- From `s` to `t` a command has ended with one response, and each of its phases took one of the answers `as` (R158). -/
def CompletesWith (as : List Answer) (s t : State) : Prop :=
  t.flight = none ∧ (∃ r, t.responses = s.responses ++ [r]) ∧
    ∃ phases, t.trace = s.trace ++ phases ∧ phases.length ≤ as.length ∧ ∀ p ∈ phases, ∃ a ∈ as, p.answer = some a

/-- A response with no phase before it needs no answer. -/
theorem completesWith_of_no_phase (as : List Answer) {s t : State} (hflight : t.flight = none)
    (hresp : ∃ r, t.responses = s.responses ++ [r]) (htrace : t.trace = s.trace) : CompletesWith as s t :=
  ⟨hflight, hresp, [], by simp [htrace], Nat.zero_le _, by simp⟩

/-- A raised status is a response with no phase before it (R132). -/
theorem completesWith_raise (as : List Answer) (s : State) (st : Status) : CompletesWith as s (s.raise st) :=
  completesWith_of_no_phase as rfl ⟨_, rfl⟩ rfl

/-- One more phase in front takes one more answer. -/
theorem CompletesWith.of_logPhase {as : List Answer} {s t : State} {r : Request} {a : Answer} {later : List BusEvent}
    (h : CompletesWith as (s.logPhase r a later) t) : CompletesWith (a :: as) s t := by
  obtain ⟨hflight, hresp, phases, htrace, hlen, hans⟩ := h
  refine ⟨hflight, hresp, ⟨r, some a⟩ :: phases, by simp [htrace], Nat.succ_le_succ hlen, ?_⟩
  intro p hp
  rcases List.mem_cons.mp hp with rfl | hp
  · exact ⟨a, List.mem_cons_self, rfl⟩
  · obtain ⟨b, hb, hpb⟩ := hans p hp
    exact ⟨b, List.mem_cons_of_mem a hb, hpb⟩

/-- With an answer for each remaining request, issuing them ends the command: at its commit or at a failed phase (R34, R50). -/
theorem issue_completesWith (i : Instr) {rs : List Request} {as : List Answer} {later : List BusEvent} (k : Nat)
    (staged : List Byte) {s : State} (hlen : rs.length ≤ as.length) (hbus : s.bus = answersThen as later) :
    CompletesWith as s ((commandOf i).issue rs k staged s) := by
  induction rs generalizing as k staged s with
  | nil =>
    obtain ⟨ovf, res, hresp, hflight, -, -, htrace⟩ := commit_responds i staged s
    exact completesWith_of_no_phase as hflight ⟨_, hresp⟩ htrace
  | cons r rs ih =>
    cases as with
    | nil => exact absurd hlen (Nat.not_succ_le_zero _)
    | cons a as =>
      rw [answersThen_cons] at hbus
      simp only [Command.issue, hbus]
      split
      · exact (ih (k + 1) _ (Nat.le_of_succ_le_succ hlen) rfl).of_logPhase
      · exact (completesWith_raise as _ _).of_logPhase

/-- No command has more than six phases (R72, R92). -/
theorem ruledRequests_length_le (i : Instr) : (ruledRequests i).length ≤ 6 := by
  cases i <;> simp [ruledRequests]

/-- With six answers a command completes: refused before any phase, or with an answer for each phase (R134, R158). -/
theorem run_completesWith (i : Instr) {s : State} {as : List Answer} {later : List BusEvent} (hlen : as.length = 6)
    (hbus : s.bus = answersThen as later) : CompletesWith as s ((commandOf i).run s) := by
  rcases run_cases i s with ⟨-, hrun⟩ | ⟨st, -, -, hrun⟩
  · rw [hrun]
    exact issue_completesWith i 0 [] ((ruledRequests_length_le i).trans hlen.ge) hbus
  · rw [hrun]
    exact completesWith_raise as s st

/-- Settles O14: six answers are enough for every command's list of phases. -/
theorem answeredCommandCompletes : Obligations.AnsweredCommandCompletes := by
  intro i s as later hlen hbus
  obtain ⟨hflight, ⟨r, hresp⟩, phases, htrace, hle, hans⟩ := run_completesWith i hlen hbus
  exact ⟨_, r, phases, exec_eq_run i s, hflight, hresp, htrace, hle.trans hlen.le, hans⟩

/-! ### Reset with a command in flight and without -/

/-- With the port free reset abandons nothing (R148). -/
theorem abandonedPhases_of_free {s : State} (h : s.flight = none) : abandonedPhases s = [] := by
  simp only [abandonedPhases, h]

/-- The request a command in flight waits on is the one its phase index points to (R22, R148). -/
theorem outstanding_of_getElem? {f : Flight} {r : Request} (h : (ruledRequests f.cmd)[f.phase]? = some r) :
    outstanding f = [r] := by
  rw [outstanding, commandOf_requests, List.take_one, List.head?_drop, h, Option.toList_some]

/-- With a command in flight reset abandons the one request it waits on (R148). -/
theorem abandonedPhases_of_inFlight {s : State} {f : Flight} {r : Request} (hf : s.flight = some f)
    (hr : (ruledRequests f.cmd)[f.phase]? = some r) : abandonedPhases s = [⟨r, none⟩] := by
  simp only [abandonedPhases, hf, outstanding_of_getElem? hr, List.map_cons, List.map_nil]

/-- Settles O19: a reset step is the reset of the block, and the trace gains the abandoned request and nothing else. -/
theorem resetAbandonsTheCommandInFlight : Obligations.ResetAbandonsTheCommandInFlight := by
  intro s later hhost
  refine ⟨fun hf => ?_, fun f r hf hr => ?_⟩
  · have hnone : abandonedPhases (s.takeHost later) = [] := abandonedPhases_of_free hf
    rw [step_of_reset hhost, resetBlock, hnone, List.append_nil, ← hf]
    rfl
  · have hone : abandonedPhases (s.takeHost later) = [⟨r, none⟩] := abandonedPhases_of_inFlight hf hr
    rw [step_of_reset hhost, resetBlock, hone]
    rfl

end Sys2Proof.Machine
end
